-- ==== Sys2Proof/Config.lean ====
section
/-! DEFINITION. The parameters of the block (rule R10) and the free values: what the spec leaves
unspecified and the block still has. A free value is an opaque constant, so no proof can see what
it is and a claim about it holds whatever it is. -/

namespace Sys2Proof

/-- `LEN_W` of the block right after reset: the spec's default (rule R10). The parameter itself is a
field of State, so that claims hold for every `LEN_W` (log entry 1). -/
def Config.lenWDefault : Nat := 16

/-- `RD_LAT` of the block right after reset: the spec's default (rule R10). The parameter itself is
a field of State, so that claims hold for every `RD_LAT` (log entry 2). -/
def Config.rdLatDefault : Nat := 1

/-- Rule R51: the byte that read number `draw` of address `a` returns while FB is being written
during a transaction (log entry 8). -/
opaque Config.freeRead (draw : Nat) (a : Nat) : BitVec 8

/-- Rule R172: the byte that read number `draw` of a payload returns at address `a` of FB once the frame
source has overwritten the frame (log entry 21). -/
opaque Config.freePayload (draw : Nat) (a : Nat) : BitVec 8

/-- Rules R31 and R230: what `len_r` holds after a reset edge, its low `LEN_W` bits counting (log
entry 6). -/
opaque Config.freeLen (draw : Nat) : Nat

/-- Rules R23, R31 and R230: what `eth_type` holds after a reset edge and between transactions
(log entries 6 and 7). -/
opaque Config.freeEthType (draw : Nat) : BitVec 16

/-- Rules R23, R31 and R230: what `vihl` holds after a reset edge and between transactions
(log entries 6 and 7). -/
opaque Config.freeVihl (draw : Nat) : BitVec 8

/-- Rules R23, R31 and R230: what `proto` holds after a reset edge and between transactions
(log entries 6 and 7). -/
opaque Config.freeProto (draw : Nat) : BitVec 8

end Sys2Proof
end

