-- ==== Sys2Proof/Word.lean ====
section
/-! DEFINITION. The word of the block: the byte of the frame buffer (rules R10, R11, R40 and R47). A
length, an offset and a frame-buffer address are numbers of `LEN_W` bits. `LEN_W` is a field of State, so
no type holds that width, and such a number is a `Nat`: what loads a register from outside takes the low
`LEN_W` bits, the invariant says that every register fits them, and nothing wraps (rule R116). -/

namespace Sys2Proof

/-- One byte of the frame buffer (rule R47). -/
abbrev Byte := BitVec 8

end Sys2Proof
end

