-- ==== Sys2Proof/Syntax.lean ====
section
/-! DEFINITION. The instructions: one constructor per row of spec/opcode_table.json. EXTRACT is the
request (rule R150). The other ten rows are the outcomes that the frame header selects (rule R68);
their operands are the fields of the key bytes that the block has read when the row is reached and
that the row's own match value does not fix. -/

namespace Sys2Proof

/-- One constructor per row of the opcode table. The frame's length is no operand: every row reads it
from the register `len_r`. -/
inductive Instr where
  /-- `EXTRACT`, the request with `req_len`, a number of `LEN_W` bits (rule R150). -/
  | extract (reqLen : Nat)
  /-- `REJ_ETH_TRUNCATED` (rule R102): no key byte has been read. -/
  | rejEthTruncated
  /-- `REJ_BAD_ETHERTYPE` (rule R103): the EtherType that was read. -/
  | rejBadEthertype (et : BitVec 16)
  /-- `REJ_IPV4_TRUNCATED` (rule R104): EtherType 0x0800. -/
  | rejIpv4Truncated
  /-- `REJ_BAD_VERSION` (rule R105): both fields of the byte read at stage I2. -/
  | rejBadVersion (version ihl : BitVec 4)
  /-- `REJ_BAD_IHL` (rule R106): version 4. -/
  | rejBadIhl (ihl : BitVec 4)
  /-- `REJ_IPV4_OPTIONS_TRUNCATED` (rule R107): version 4. -/
  | rejIpv4OptionsTruncated (ihl : BitVec 4)
  /-- `REJ_NOT_UDP` (rule R108): version 4 and the protocol that was read. -/
  | rejNotUdp (ihl : BitVec 4) (proto : Byte)
  /-- `REJ_UDP_HDR_TRUNCATED` (rule R110): version 4, protocol 17. -/
  | rejUdpHdrTruncated (ihl : BitVec 4)
  /-- `REJ_EMPTY_PAYLOAD` (rule R111): version 4, protocol 17. -/
  | rejEmptyPayload (ihl : BitVec 4)
  /-- `ACCEPT` (rule R112): version 4, protocol 17. -/
  | accept (ihl : BitVec 4)
deriving DecidableEq, Repr

end Sys2Proof
end

