-- ==== Sys2Proof/WellFormed.lean ====
section
/-! DEFINITION. Which instructions are words of their row. `wellFormed` is the table's key_condition
column said of the operands; `fitsLength` is its length_condition column together with the length
conditions of the rows above it, which the table's priority order brings in (rule R68). -/

namespace Sys2Proof

/-- The operands meet the key condition of the instruction's row (rule R68, column 3); a request's length
fits `LEN_W` bits (rules R150 and R152). -/
def Instr.wellFormed (lenW : Nat) : Instr → Bool
  | .extract reqLen => decide (reqLen < 2 ^ lenW)
  | .rejEthTruncated => true
  | .rejBadEthertype et => et != 0x0800#16
  | .rejIpv4Truncated => true
  | .rejBadVersion version _ => version != 4#4
  | .rejBadIhl ihl => decide (ihl.toNat < 5)
  | .rejIpv4OptionsTruncated ihl => decide (6 ≤ ihl.toNat)
  | .rejNotUdp ihl proto => decide (5 ≤ ihl.toNat) && proto != 17#8
  | .rejUdpHdrTruncated ihl => decide (5 ≤ ihl.toNat)
  | .rejEmptyPayload ihl => decide (5 ≤ ihl.toNat)
  | .accept ihl => decide (5 ≤ ihl.toNat)

/-- A frame of `len` bytes may have this outcome: its row's length condition holds and those of the
rows above leave it over (rule R68, column 4). A request takes any length that `req_len` carries. -/
def Instr.fitsLength : Instr → Nat → Bool
  | .extract _, _ => true
  | .rejEthTruncated, len => decide (len < 14)
  | .rejBadEthertype _, len => decide (14 ≤ len)
  | .rejIpv4Truncated, len => decide (14 ≤ len ∧ len < 34)
  | .rejBadVersion _ _, len => decide (34 ≤ len)
  | .rejBadIhl _, len => decide (34 ≤ len)
  | .rejIpv4OptionsTruncated ihl, len => decide (34 ≤ len ∧ len < 14 + 4 * ihl.toNat)
  | .rejNotUdp ihl _, len => decide (14 + 4 * ihl.toNat ≤ len)
  | .rejUdpHdrTruncated ihl, len =>
      decide (14 + 4 * ihl.toNat ≤ len ∧ len < 22 + 4 * ihl.toNat)
  | .rejEmptyPayload ihl, len => decide (len = 22 + 4 * ihl.toNat)
  | .accept ihl, len => decide (22 + 4 * ihl.toNat < len)

/-- The instruction is one of the ten outcome rows. -/
def Instr.isOutcome : Instr → Bool
  | .extract _ => false
  | .rejEthTruncated | .rejBadEthertype _ | .rejIpv4Truncated | .rejBadVersion _ _
  | .rejBadIhl _ | .rejIpv4OptionsTruncated _ | .rejNotUdp _ _ | .rejUdpHdrTruncated _
  | .rejEmptyPayload _ | .accept _ => true

end Sys2Proof
end

