-- ==== Sys2Proof/Decode.lean ====
section
/-! DEFINITION. The decoder and the encoder. What the block decodes is the frame header: the
classification key `K` and the frame's length select one of ten outcome rows (rule R68). The request
word is `req_len` itself (rule R150). The header constants are named here, one definition each, as
93_implementation_defined.md Part 2 asks. -/

namespace Sys2Proof

/-! ### Header constants (rules R61 to R66, items I1a to I1k) -/

/-- `ETH_HDR_LEN` (rule R62). -/
abbrev ethHdrLen : Nat := 14
/-- `IPV4_MIN_HDR_LEN` (rule R64). -/
abbrev ipv4MinHdrLen : Nat := 20
/-- `UDP_HDR_LEN` (rule R66). -/
abbrev udpHdrLen : Nat := 8
/-- `IHL_UNIT` (item I1f): the header length counts words of 4 bytes. -/
abbrev ihlUnit : Nat := 4
/-- `ETHERTYPE_OFF` (item I1a): the EtherType's first byte. -/
abbrev etherTypeOff : Nat := 12
/-- `VIHL_OFF` (item I1e): the byte of version and IHL. -/
abbrev vihlOff : Nat := 14
/-- `PROTO_OFF` (item I1g): the protocol byte. -/
abbrev protoOff : Nat := 23
/-- `ETHERTYPE_IPV4` (item I1b). -/
abbrev etherTypeIpv4 : BitVec 16 := 0x0800#16
/-- The IPv4 version (rule R64). -/
abbrev versionIpv4 : BitVec 4 := 4#4
/-- `PROTO_UDP` (item I1h). -/
abbrev protoUdp : Byte := 17#8
/-- The least IHL that is legal: 20 bytes in words of 4 (rule R64). -/
abbrev minIhl : Nat := 5

/-! ### Lengths -/

/-- `MAX_FRAME_LEN = 2^LEN_W - 1` (rule R10). -/
abbrev maxFrameLen (lenW : Nat) : Nat := 2 ^ lenW - 1

/-- The low `w` bits of a number: what a register or a port of `w` bits takes of it. -/
def lowBits (w n : Nat) : Nat := n % 2 ^ w

/-- `ip_end = 14 + 4 * IHL` (rule R67). -/
abbrev ipEnd (ihl : BitVec 4) : Nat := ethHdrLen + ihlUnit * ihl.toNat

/-- `offset = ip_end + 8` (rules R67 and R109). -/
abbrev payloadOffset (ihl : BitVec 4) : Nat := ipEnd ihl + udpHdrLen

/-- A byte pair read as a number, most significant byte first (rule R45). -/
def pair (hi lo : Byte) : Nat := 256 * hi.toNat + lo.toNat

/-! ### The classification key (rule R68) -/

/-- `K = FB[12] ‖ FB[13] ‖ FB[14] ‖ FB[23]`. -/
def makeKey (b12 b13 b14 b23 : Byte) : BitVec 32 := b12 ++ b13 ++ b14 ++ b23

/-- `K[31:16]`. -/
def keyEthType (k : BitVec 32) : BitVec 16 := k.extractLsb' 16 16
/-- `K[15:12]`. -/
def keyVersion (k : BitVec 32) : BitVec 4 := k.extractLsb' 12 4
/-- `K[11:8]`. -/
def keyIhl (k : BitVec 32) : BitVec 4 := k.extractLsb' 8 4
/-- `K[7:0]`. -/
def keyProto (k : BitVec 32) : Byte := k.extractLsb' 0 8

/-- One row of the classification table: `(K & mask) == match` together with the two conditions that
match and mask cannot express (rule R68 and opcode_table.json), and the outcome with its operands. -/
structure Row where
  matchBits : BitVec 32
  maskBits : BitVec 32
  keyCondition : BitVec 32 → Bool
  lengthCondition : BitVec 32 → Nat → Bool
  outcome : BitVec 32 → Instr

/-- The row's condition holds of the key and the length. -/
def Row.holds (r : Row) (k : BitVec 32) (len : Nat) : Bool :=
  (k &&& r.maskBits == r.matchBits) && r.keyCondition k && r.lengthCondition k len

/-- Row 1, `REJ_ETH_TRUNCATED`. -/
def rowEthTruncated : Row where
  matchBits := 0x00000000#32
  maskBits := 0x00000000#32
  keyCondition _ := true
  lengthCondition _ len := decide (len < ethHdrLen)
  outcome _ := .rejEthTruncated

/-- Row 2, `REJ_BAD_ETHERTYPE`. -/
def rowBadEthertype : Row where
  matchBits := 0x00000000#32
  maskBits := 0x00000000#32
  keyCondition k := keyEthType k != etherTypeIpv4
  lengthCondition _ len := decide (ethHdrLen ≤ len)
  outcome k := .rejBadEthertype (keyEthType k)

/-- Row 3, `REJ_IPV4_TRUNCATED`. -/
def rowIpv4Truncated : Row where
  matchBits := 0x08000000#32
  maskBits := 0xFFFF0000#32
  keyCondition k := keyEthType k == etherTypeIpv4
  lengthCondition _ len := decide (len < ethHdrLen + ipv4MinHdrLen)
  outcome _ := .rejIpv4Truncated

/-- Row 4, `REJ_BAD_VERSION`. -/
def rowBadVersion : Row where
  matchBits := 0x08000000#32
  maskBits := 0xFFFF0000#32
  keyCondition k := keyEthType k == etherTypeIpv4 && keyVersion k != versionIpv4
  lengthCondition _ len := decide (ethHdrLen + ipv4MinHdrLen ≤ len)
  outcome k := .rejBadVersion (keyVersion k) (keyIhl k)

/-- Row 5, `REJ_BAD_IHL`. -/
def rowBadIhl : Row where
  matchBits := 0x08004000#32
  maskBits := 0xFFFFF000#32
  keyCondition k := decide ((keyIhl k).toNat < minIhl)
  lengthCondition _ len := decide (ethHdrLen + ipv4MinHdrLen ≤ len)
  outcome k := .rejBadIhl (keyIhl k)

/-- Row 6, `REJ_IPV4_OPTIONS_TRUNCATED`. -/
def rowIpv4OptionsTruncated : Row where
  matchBits := 0x08004000#32
  maskBits := 0xFFFFF000#32
  keyCondition k := decide (minIhl + 1 ≤ (keyIhl k).toNat)
  lengthCondition k len := decide (len < ipEnd (keyIhl k))
  outcome k := .rejIpv4OptionsTruncated (keyIhl k)

/-- Row 7, `REJ_NOT_UDP`. -/
def rowNotUdp : Row where
  matchBits := 0x08004000#32
  maskBits := 0xFFFFF000#32
  keyCondition k := decide (minIhl ≤ (keyIhl k).toNat) && keyProto k != protoUdp
  lengthCondition k len := decide (ipEnd (keyIhl k) ≤ len)
  outcome k := .rejNotUdp (keyIhl k) (keyProto k)

/-- Row 8, `REJ_UDP_HDR_TRUNCATED`. -/
def rowUdpHdrTruncated : Row where
  matchBits := 0x08004011#32
  maskBits := 0xFFFFF0FF#32
  keyCondition k := decide (minIhl ≤ (keyIhl k).toNat)
  lengthCondition k len := decide (ipEnd (keyIhl k) ≤ len ∧ len < payloadOffset (keyIhl k))
  outcome k := .rejUdpHdrTruncated (keyIhl k)

/-- Row 9, `REJ_EMPTY_PAYLOAD`. -/
def rowEmptyPayload : Row where
  matchBits := 0x08004011#32
  maskBits := 0xFFFFF0FF#32
  keyCondition k := decide (minIhl ≤ (keyIhl k).toNat)
  lengthCondition k len := decide (len = payloadOffset (keyIhl k))
  outcome k := .rejEmptyPayload (keyIhl k)

/-- Row 10, `ACCEPT`. -/
def rowAccept : Row where
  matchBits := 0x08004011#32
  maskBits := 0xFFFFF0FF#32
  keyCondition k := decide (minIhl ≤ (keyIhl k).toNat)
  lengthCondition k len := decide (payloadOffset (keyIhl k) < len)
  outcome k := .accept (keyIhl k)

/-- Rows 1 to 9 in priority order; row 10 comes after them. -/
def rejectRows : List Row :=
  [rowEthTruncated, rowBadEthertype, rowIpv4Truncated, rowBadVersion, rowBadIhl,
   rowIpv4OptionsTruncated, rowNotUdp, rowUdpHdrTruncated, rowEmptyPayload]

/-- The classification table: "tried in priority order and the first whose condition holds is the
outcome", "The last row catches every frame no row above caught" (rule R68). -/
def decodeKey (len : Nat) (k : BitVec 32) : Instr :=
  match rejectRows.find? (fun r => r.holds k len) with
  | some r => r.outcome k
  | none => rowAccept.outcome k

/-- The outcome row of a whole captured frame, its length being its number of bytes (rule R40). A byte
that a short frame does not hold is written 0 in the key: no row reads it (rule R113). -/
def decodeFrame (frame : List Byte) : Instr :=
  decodeKey frame.length
    (makeKey (frame.getD etherTypeOff 0#8) (frame.getD (etherTypeOff + 1) 0#8)
      (frame.getD vihlOff 0#8) (frame.getD protoOff 0#8))

/-- The request handshake's instruction (rule R150), from the word on `req_len`, which has `LEN_W` bits:
every one is legal. -/
def decodeRequest {lenW : Nat} (word : BitVec lenW) : Instr := .extract word.toNat

/-- The word that a request of this length puts on `req_len` (rules R74 and R150). -/
def encodeRequest (lenW : Nat) (reqLen : Nat) : BitVec lenW := BitVec.ofNat lenW reqLen

/-! ### Encoded instructions as bytes

The spec gives the key and the request their bits and gives the frame's length none. The opcode table
shows the request for `LEN_W = 16`, and so does this layout. The model writes an encoded instruction as
bytes, most significant first: two bytes of `req_len`, or the four key bytes in frame order and two
bytes that say how many bytes the frame falls short of `MAX_FRAME_LEN` (DESIGN CHOICE, log entry 9: two
zero bytes there stand for a frame that no length cuts). -/

/-- Why a byte string is no encoded instruction. -/
inductive DecodeError where
  /-- The byte string has neither the request's size nor the size of a key with its shortfall. -/
  | noFormat (size : Nat)
deriving DecidableEq, Repr

/-- The decoder on bytes: total, rejecting by name what has no format. -/
def decode : List Byte → Except DecodeError Instr
  | [hi, lo] => .ok (decodeRequest (hi ++ lo))
  | [b12, b13, b14, b23, hi, lo] =>
      .ok (decodeKey (maxFrameLen 16 - pair hi lo) (makeKey b12 b13 b14 b23))
  | bs => .error (.noFormat bs.length)

/-- The two bytes of a number below 65536, most significant first. -/
def pairBytes (n : Nat) : List Byte := [BitVec.ofNat 8 (n / 256), BitVec.ofNat 8 n]

/-- The four key bytes of an outcome in frame order. A byte that the row does not let the block read
is written 0: no outcome depends on it (rule R68). -/
def encodeKey : Instr → List Byte
  | .extract _ => []
  | .rejEthTruncated => [0#8, 0#8, 0#8, 0#8]
  | .rejBadEthertype et => [et.extractLsb' 8 8, et.extractLsb' 0 8, 0#8, 0#8]
  | .rejIpv4Truncated => [0x08#8, 0x00#8, 0#8, 0#8]
  | .rejBadVersion version ihl => [0x08#8, 0x00#8, version ++ ihl, 0#8]
  | .rejBadIhl ihl => [0x08#8, 0x00#8, versionIpv4 ++ ihl, 0#8]
  | .rejIpv4OptionsTruncated ihl => [0x08#8, 0x00#8, versionIpv4 ++ ihl, 0#8]
  | .rejNotUdp ihl proto => [0x08#8, 0x00#8, versionIpv4 ++ ihl, proto]
  | .rejUdpHdrTruncated ihl => [0x08#8, 0x00#8, versionIpv4 ++ ihl, protoUdp]
  | .rejEmptyPayload ihl => [0x08#8, 0x00#8, versionIpv4 ++ ihl, protoUdp]
  | .accept ihl => [0x08#8, 0x00#8, versionIpv4 ++ ihl, protoUdp]

/-- The encoder: the request's word, or an outcome's key with the shortfall of a frame of `len`
bytes. -/
def encode (len : Nat) : Instr → List Byte
  | .extract reqLen => pairBytes reqLen
  | i => encodeKey i ++ pairBytes (maxFrameLen 16 - len)

/-- The table word `w` laid out as bytes: up to 16 bits it is `req_len`; up to 48 bits its low 32 bits
are `K` and the bits from 32 on the shortfall, which are 0 where the table gives the row only `K`. -/
def tableBytes (nbits w : Nat) : List Byte :=
  if nbits ≤ 16 then pairBytes w
  else if nbits ≤ 48 then
    [BitVec.ofNat 8 (w / 2 ^ 24), BitVec.ofNat 8 (w / 2 ^ 16), BitVec.ofNat 8 (w / 2 ^ 8),
     BitVec.ofNat 8 w] ++ pairBytes (w / 2 ^ 32)
  else []

/-- The instruction that the decoder reads from a word numbered as the opcode table numbers it. -/
def decodeTableWord (nbits w : Nat) : Option Instr := (decode (tableBytes nbits w)).toOption

end Sys2Proof
end

