-- ==== Sys2Proof/Machine/State.lean ====
section
/-! DEFINITION. The state of the block and of its surroundings as plain data: the registers of rule
R20, the frame buffer that the frame source owns (rule R40), the reads in flight on the read port
(rule R42), the values that the neighbours put on the input ports (rule R140), the output log (rules
R143 and R240), and the model's own fields. -/

namespace Sys2Proof.Machine

/-- Rule R21. The unused code 0b11 is left out of the type, as rule R21 and item I11 allow. -/
inductive Phase where
  | idle
  | busy
  | resp
deriving DecidableEq, Repr

/-- What the realisation does in one cycle of BUSY. The order and the times of its reads and the length
of BUSY are free (rules R44 and R146), so they are data that claims quantify over (log entry 3). -/
inductive Move where
  /-- Drive `fb_rd_en = 1` with this address. -/
  | issue (a : Nat)
  /-- Neither issue a read nor finish. -/
  | wait
  /-- End BUSY at this cycle's edge. -/
  | finish
deriving DecidableEq, Repr

/-- The inputs of one clock cycle (rule R140), sampled at the rising edge that ends it (of `reqLen` the
port carries the low `LEN_W` bits), and what the frame source does with its
FB in that cycle: the bytes that it writes, and whether its memory leaves a read unanswered or answers
it late or wrongly (rules R42 and R152). `fb_rd_data` is not here: FB drives it. -/
structure PortIn where
  rst : Bool
  reqValid : Bool
  reqLen : Nat
  rspReady : Bool
  fbWrites : List (Nat × Byte)
  badAnswer : Bool
deriving DecidableEq, Repr

/-- A cycle in which no neighbour does anything. -/
def PortIn.quiet : PortIn := ⟨false, false, 0, false, [], false⟩

/-- The 4-tuple on the response port, as bits (rules R24, R140). -/
structure Response where
  status : BitVec 3
  detail : BitVec 4
  offset : Nat
  length : Nat
deriving DecidableEq, Repr

/-- A payload that a response handshake has handed downstream (rules R170 and R172): its place in FB, and
whether the frame source has left the frame alone since the request. The payload "borrows RawFrame's
lifetime". -/
structure Loan where
  offset : Nat
  length : Nat
  intact : Bool
deriving DecidableEq, Repr

/-- FB as a list of address and byte, in the canonical form of `Memory.wf` (Machine/Ops.lean). -/
abbrev Memory := List Host.Cell

/-- The whole state. -/
structure State where
  /-- Rule R21. -/
  phase : Phase
  /-- Rule R22. -/
  lenR : Nat
  /-- Rule R23. -/
  ethType : BitVec 16
  /-- Rule R23. -/
  vihl : Byte
  /-- Rule R23. -/
  proto : Byte
  /-- Rule R24. -/
  resStatus : BitVec 3
  /-- Rule R24. -/
  resDetail : BitVec 4
  /-- Rule R24. -/
  resOffset : Nat
  /-- Rule R24. -/
  resLength : Nat
  /-- Rule R40: the frame buffer, owned by the frame source. -/
  fb : Memory
  /-- Rule R42: the reads issued and not yet answered, each with the cycles until its data. -/
  rdPending : List (Nat × Nat)
  /-- Rule R42: the bytes that the read port has answered in this transaction. -/
  rdData : List (Nat × Byte)
  /-- Rules R51 and R152: the frame source has broken its duty during this transaction. -/
  disturbed : Bool
  /-- Rule R140: the inputs of the coming cycles; quiet cycles when the list has ended. -/
  inputs : List PortIn
  /-- Rules R44 and R146: the realisation's moves in the coming BUSY cycles; when the list has ended
  it reads what it needs and finishes. -/
  sched : List Move
  /-- Rules R143 and R240: the result tuples taken at the response handshakes, oldest first. -/
  log : List Response
  /-- Rule R172: the frame source has left the frame alone since the request whose response the result
  registers hold (log entry 21). -/
  payloadIntact : Bool
  /-- Rule R172: the payloads handed downstream, oldest first. -/
  loans : List Loan
  /-- `LEN_W` (rule R10), a parameter of the block: no step writes it. -/
  lenW : Nat
  /-- `RD_LAT` (rule R10), a parameter of the realisation: no step writes it. -/
  rdLat : Nat
  /-- The model's own: how many times free values have been drawn. -/
  draws : Nat
deriving DecidableEq, Repr

/-- Why the machine stops with a fault. -/
inductive Fault where
  /-- Raised by the response handshake when the result registers hold a status and detail pair that no
  extraction produces: "a `fault` of the realisation" (item I16 of 93_implementation_defined.md). Safe:
  no state that a run reaches raises it. -/
  | reservedResponse (status : BitVec 3) (detail : BitVec 4)
deriving DecidableEq, Repr

/-- Why the machine refuses. -/
inductive Refusal where
  /-- Raised by an arm of exec whose instruction has no meaning yet. Safe. No arm does so. -/
  | notModelled (mnemonic : String)
deriving DecidableEq, Repr

/-- The block right after reset (rules R31 and R230), in quiet surroundings. `phase` and the result
registers are the spec's values. `lenR`, `ethType`, `vihl` and `proto` are unspecified there and hold
0 here (DESIGN CHOICE, log entry 5); so are the contents of FB (log entry 4). -/
def State.reset : State where
  phase := .idle
  lenR := 0
  ethType := 0
  vihl := 0
  proto := 0
  resStatus := 0b000
  resDetail := 0x0
  resOffset := 0
  resLength := 0
  fb := []
  rdPending := []
  rdData := []
  disturbed := false
  inputs := []
  sched := []
  log := []
  payloadIntact := true
  loans := []
  lenW := Config.lenWDefault
  rdLat := Config.rdLatDefault
  draws := 0

end Sys2Proof.Machine
end

