-- ==== Sys2Proof/Machine/Flags.lean ====
section
/-! DEFINITION. The outcome codes. The block has no flags and no condition codes (rule R27); what takes
their place is the status code (rule R70), the detail code (rule R71) and the 4-tuple they stand in
(rules R15 and R24). -/

namespace Sys2Proof.Machine

/-- Rule R70. The last two are the record decoder's and are never driven here (rule R173). -/
inductive Status where
  | ok
  | frameMalformed
  | notUdp
  | payloadTruncated
  | notARecord
  | emptyRecord
deriving DecidableEq, Repr

/-- Rule R70: the 3-bit encoding; 0b110 and 0b111 are reserved. -/
def Status.code : Status → BitVec 3
  | .ok => 0b000#3
  | .frameMalformed => 0b001#3
  | .notUdp => 0b010#3
  | .payloadTruncated => 0b011#3
  | .notARecord => 0b100#3
  | .emptyRecord => 0b101#3

/-- Rule R71. -/
inductive Detail where
  | none
  | ethTruncated
  | badEthertype
  | ipv4Truncated
  | badVersion
  | badIhl
  | ipv4OptionsTruncated
  | nonUdpProtocol
  | udpHdrTruncated
  | emptyPayload
deriving DecidableEq, Repr

/-- Rule R71: the 4-bit encoding; 0xA to 0xF are reserved. -/
def Detail.code : Detail → BitVec 4
  | .none => 0x0#4
  | .ethTruncated => 0x1#4
  | .badEthertype => 0x2#4
  | .ipv4Truncated => 0x3#4
  | .badVersion => 0x4#4
  | .badIhl => 0x5#4
  | .ipv4OptionsTruncated => 0x6#4
  | .nonUdpProtocol => 0x7#4
  | .udpHdrTruncated => 0x8#4
  | .emptyPayload => 0x9#4

/-- Rule R71, column 3: each detail determines its status. -/
def Detail.status : Detail → Status
  | .none => .ok
  | .ethTruncated | .badEthertype | .ipv4Truncated | .badVersion | .badIhl
  | .ipv4OptionsTruncated => .frameMalformed
  | .nonUdpProtocol => .notUdp
  | .udpHdrTruncated | .emptyPayload => .payloadTruncated

/-- The ten details (rule R71). -/
def Detail.all : List Detail :=
  [.none, .ethTruncated, .badEthertype, .ipv4Truncated, .badVersion, .badIhl,
   .ipv4OptionsTruncated, .nonUdpProtocol, .udpHdrTruncated, .emptyPayload]

/-- "The pairs (status, detail) the FLE can produce are exactly the ten of this table" (rule R71). -/
def legalCodes (status : BitVec 3) (detail : BitVec 4) : Bool :=
  Detail.all.any (fun d => d.code == detail && d.status.code == status)

/-- `Result(status, detail, offset, length)` on mathematical integers (rules R11 and R15). -/
structure Result where
  status : Status
  detail : Detail
  offset : Nat
  length : Nat
deriving DecidableEq, Repr

/-- `raise Reject(status, detail)` is `return Result(status, detail, 0, 0)` (rule R15). -/
def Result.reject (d : Detail) : Result := ⟨d.status, d, 0, 0⟩

/-- `return Result(OK, NONE, offset, length)` (rule R112). -/
def Result.accept (offset length : Nat) : Result := ⟨.ok, .none, offset, length⟩

/-- The tuple in the codes of the response port (rules R24, R70 and R71). -/
def Result.bits (r : Result) : Response :=
  ⟨r.status.code, r.detail.code, r.offset, r.length⟩

/-- Rule R21: the internal 2-bit encoding of `phase`. -/
def Phase.code : Phase → BitVec 2
  | .idle => 0b00#2
  | .busy => 0b01#2
  | .resp => 0b10#2

/-- Rule R21: the phase that a realisation holding this code acts in; the unused code 0b11, which only
an upset can enter, is treated as IDLE. -/
def phaseOfCode (c : BitVec 2) : Phase :=
  if c = 0b01#2 then .busy else if c = 0b10#2 then .resp else .idle

end Sys2Proof.Machine
end

