-- ==== Sys2Proof/Machine/Ops.lean ====
section
/-! DEFINITION. The named operations over the frame buffer and the registers: reading and writing FB,
latching the request, latching the header registers, delivering an outcome into the result registers
(the one operation every accept and every rejection goes through, rules R142 and R204), the return
from it at the response handshake (rules R143 and R205), and reset (rule R230). -/

namespace Sys2Proof.Machine

/-! ### The frame buffer (rule R40) -/

/-- What an address of FB reads as that the frame source has never written. The spec gives none
(DESIGN CHOICE, log entry 4). -/
def unlistedByte : Byte := 0#8

/-- `FB[a]`. -/
def Memory.read : Memory → Nat → Byte
  | [], _ => unlistedByte
  | (a', b') :: m, a => if a' = a then b' else Memory.read m a

/-- FB with the byte `b` at address `a`, in canonical form: an entry equal to what an unlisted address
reads as is taken out. Only the frame source writes FB (rule R41). -/
def Memory.write : Memory → Nat → Byte → Memory
  | [], a, b => if b = unlistedByte then [] else [(a, b)]
  | (a', b') :: m, a, b =>
    if a < a' then
      if b = unlistedByte then (a', b') :: m else (a, b) :: (a', b') :: m
    else if a = a' then
      if b = unlistedByte then m else (a, b) :: m
    else (a', b') :: Memory.write m a b

/-- FB after several writes, the first in the list first. -/
def Memory.writes (m : Memory) : List (Nat × Byte) → Memory
  | [] => m
  | (a, b) :: ws => Memory.writes (Memory.write m a b) ws

/-- The canonical form: addresses strictly rising, and no entry equal to what an unlisted address reads
as. -/
abbrev Memory.wf (m : Memory) : Prop :=
  m.Pairwise (fun x y => x.1 < y.1) ∧ ∀ c ∈ m, c.2 ≠ unlistedByte

/-- Every entry stands at one of the `2^LEN_W` addresses of rule R40. -/
abbrev Memory.inside (lenW : Nat) (m : Memory) : Prop := ∀ c ∈ m, c.1 < 2 ^ lenW

/-- One of the writes goes to the first `len` bytes of FB. -/
def writesFrame (len : Nat) (ws : List (Nat × Byte)) : Bool :=
  ws.any (fun w => decide (w.1 < len))

/-- A payload handed downstream, after these writes: a write to its frame, which runs to the payload's
end (rule R115), ends its lifetime (rules R172 and R235; log entry 21). -/
def Loan.note (ws : List (Nat × Byte)) (l : Loan) : Loan :=
  { l with intact := l.intact && !writesFrame (l.offset + l.length) ws }

/-- `MemRead(a, 1)` (rule R13): one byte, no side effect (rule R47). -/
def memRead (s : State) (a : Nat) : Byte := Memory.read s.fb a

/-! ### The registers -/

/-- The response that the result registers hold (rule R148). -/
def State.response (s : State) : Response :=
  ⟨s.resStatus, s.resDetail, s.resOffset, s.resLength⟩

/-- Rule R141: the request handshake latches the length and opens the transaction, in which no read
has been issued yet. -/
def State.accepted (n : Nat) (s : State) : State :=
  { s with lenR := lowBits s.lenW n, phase := .busy, rdPending := [], rdData := [], disturbed := false }

/-- Stage E2 writes `eth_type` (rule R103). -/
def State.latchEthType (et : BitVec 16) (s : State) : State := { s with ethType := et }

/-- Stage I2 writes `vihl` (rule R105). -/
def State.latchVihl (v : Byte) (s : State) : State := { s with vihl := v }

/-- Stage U1 writes `proto` (rule R108). -/
def State.latchProto (p : Byte) (s : State) : State := { s with proto := p }

/-- Rule R142: the result goes into the result registers and the phase to RESP, both at the same edge.
The read port is left with nothing outstanding (rule R147), and the payload is intact unless the frame
source has broken its duty already (rules R172 and R235; log entry 21). -/
def State.concluded (r : Response) (s : State) : State :=
  { s with
    resStatus := r.status, resDetail := r.detail
    resOffset := lowBits s.lenW r.offset, resLength := lowBits s.lenW r.length
    phase := .resp, rdPending := [], rdData := [], disturbed := false
    payloadIntact := !s.disturbed }

/-- What a rejection saves (rule R204): the status and the detail, a zero offset and a zero length. -/
def State.rejected (d : Detail) (s : State) : State := s.concluded (Result.reject d).bits

/-- An outcome row takes its effect in BUSY, the phase that evaluates the extraction (rule R142), when
the row's condition holds (rule R68). In another phase no header is evaluated and the registers stay as
they are (rules R141, R143); a row whose condition does not hold is not the outcome. -/
def State.concludeIf (s : State) (rowHolds : Bool) (after : State) :
    Host.Outcome State Fault Refusal :=
  if s.phase = .busy ∧ rowHolds = true then .next after else .next s

/-- The payload that the response handshake of this state hands downstream, if its status is OK
(rule R170). -/
def State.newLoans (s : State) : List Loan :=
  if s.resStatus = Status.ok.code then [⟨s.resOffset, s.resLength, s.payloadIntact⟩] else []

/-- Rules R143 and R205: the response handshake appends the tuple to the output log and the phase
returns to IDLE; the payload of an accepted frame is on loan (rule R172). From here on the header
registers are unspecified (rule R23): they are free values (log entry 7). -/
def State.delivered (s : State) : State :=
  { s with
    log := s.log ++ [s.response], loans := s.loans ++ s.newLoans, phase := .idle
    ethType := Config.freeEthType s.draws, vihl := Config.freeVihl s.draws
    proto := Config.freeProto s.draws, draws := s.draws + 1 }

/-- Rule R230: the reset edge. `len_r`, `eth_type`, `vihl` and `proto` become unspecified: they are
free values (log entry 6). Reads in flight are dropped and their answers ignored (rule R231). -/
def State.resetEdge (s : State) : State :=
  { s with
    phase := .idle
    resStatus := 0b000, resDetail := 0x0, resOffset := 0, resLength := 0
    lenR := lowBits s.lenW (Config.freeLen s.draws), ethType := Config.freeEthType s.draws
    vihl := Config.freeVihl s.draws, proto := Config.freeProto s.draws
    rdPending := [], rdData := [], disturbed := false, draws := s.draws + 1 }

end Sys2Proof.Machine
end

