-- ==== Sys2Proof/Machine/Operands.lean ====
section
/-! DEFINITION. The operands of an outcome row: the key bytes of the frame (rules R44, R61 to R65), the
key assembled from the bytes that the read port has answered, and which read comes next. The block has
one operand form, a byte of FB at a fixed address behind a length check (rules R13 and R43). -/

namespace Sys2Proof.Machine

/-- The addresses that a transaction may read (rule R44). -/
def keyAddrs : List Nat :=
  [etherTypeOff, etherTypeOff + 1, vihlOff, protoOff]

/-- The byte that the read port has answered for this address, if it has. -/
def sampled (d : List (Nat × Byte)) (a : Nat) : Option Byte := d.lookup a

/-- The classification key from the answered bytes. A byte not read is written 0: a row counts only the
key bytes that have been read (rule R68). -/
def sampledKey (d : List (Nat × Byte)) : BitVec 32 :=
  makeKey ((sampled d etherTypeOff).getD 0#8)
    ((sampled d (etherTypeOff + 1)).getD 0#8)
    ((sampled d vihlOff).getD 0#8)
    ((sampled d protoOff).getD 0#8)

/-- The next byte that the extraction needs, none when the bytes at hand settle the outcome. Each read
stands at the stage that needs it, behind the length check that proves it in bounds: 12 and 13 at E2,
14 at I2, 23 at U1 (rules R43 and R44). -/
def nextRead (len : Nat) (rd : Nat → Option Byte) : Option Nat :=
  if len < ethHdrLen then none
  else
    match rd etherTypeOff, rd (etherTypeOff + 1) with
    | none, _ => some etherTypeOff
    | _, none => some (etherTypeOff + 1)
    | some hi, some lo =>
      if hi ++ lo ≠ etherTypeIpv4 then none
      else if len < ethHdrLen + ipv4MinHdrLen then none
      else
        match rd vihlOff with
        | none => some vihlOff
        | some v =>
          if v.extractLsb' 4 4 ≠ versionIpv4 then none
          else if (v.extractLsb' 0 4).toNat < minIhl then none
          else if len < ipEnd (v.extractLsb' 0 4) then none
          else
            match rd protoOff with
            | none => some protoOff
            | some _ => none

end Sys2Proof.Machine
end

