-- ==== Sys2Proof/Machine/Cycle.lean ====
section
/-! DEFINITION. What one clock cycle does around an instruction: the inputs are taken, the frame
source's writes reach FB, the read port answers, the realisation issues a read or ends BUSY, and the
rising edge runs an instruction, delivers a response, resets, or does nothing (rules R141 to R145,
R230). It also says how a table word comes to be the next instruction. -/

namespace Sys2Proof.Machine

/-! ### Inputs -/

/-- The inputs of the present cycle (rule R140). -/
def State.now (s : State) : PortIn := s.inputs.headD PortIn.quiet

/-- The frame source's writes of the present cycle. FB has `2^LEN_W` addresses (rule R40), so a write to
another one is none. -/
def State.incoming (s : State) : List (Nat × Byte) :=
  s.now.fbWrites.filter (fun w => decide (w.1 < 2 ^ s.lenW))

/-- The cycle ends: its inputs are used up and the frame source's writes are in FB, where they may end
the lifetime of a payload (rule R172; log entry 21). -/
def State.endCycle (s : State) : State :=
  { s with
    inputs := s.inputs.tail, fb := Memory.writes s.fb s.incoming
    payloadIntact := s.payloadIntact && !writesFrame (s.resOffset + s.resLength) s.incoming
    loans := s.loans.map (Loan.note s.incoming) }

/-- The frame source has broken its duty to the running transaction (rules R152 and R235). Each read of
that transaction is then a free draw (rule R51), those already answered too (log entry 8). -/
def State.disturb (s : State) : State :=
  { s with
    disturbed := true
    rdData := s.rdData.map (fun p => (p.1, Config.freeRead s.draws p.1))
    draws := s.draws + 1 }

/-- In this cycle the frame source breaks its duty to a transaction over a frame of `len` bytes: it writes
the frame (rule R235), or its memory does not answer a read as rule R42 says. "A frame source that
breaks a *must* gives the outcomes of 20_memory.md rule R51" (rule R152). A bad answer in a cycle in which
no read is due, where the spec gives it no meaning, counts as a breach too (DESIGN CHOICE, log
entry 8). -/
def breaksDuty (len : Nat) (c : PortIn) : Bool := c.badAnswer || writesFrame len c.fbWrites

/-- What that means for a transaction in BUSY. Outside BUSY the block reads nothing. -/
def State.noteDuty (c : PortIn) (s : State) : State :=
  if s.phase = .busy ∧ breaksDuty s.lenR c = true then s.disturb else s

/-! ### The read port (rule R42) -/

/-- The byte that the read port answers for this address: FB's, or a free draw when the frame source
has broken its duty (rules R50 and R51). -/
def State.answer (s : State) (a : Nat) : Byte :=
  if s.disturbed = true then Config.freeRead s.draws a else memRead s a

/-- The reads whose data comes in this cycle: issued `RD_LAT` cycles ago. -/
def State.arriving (s : State) : List Nat :=
  (s.rdPending.filter (fun p => decide (p.2 ≤ 1))).map (·.1)

/-- The read port moves on by one cycle: what arrives is sampled, the rest comes a cycle nearer. -/
def State.sample (s : State) : State :=
  { s with
    rdPending := (s.rdPending.filter (fun p => decide (1 < p.2))).map (fun p => (p.1, p.2 - 1))
    rdData := s.rdData ++ s.arriving.map (fun a => (a, s.answer a))
    draws := if s.disturbed = true then s.draws + 1 else s.draws }

/-- The addresses read so far in this transaction, answered or not. -/
def State.issued (s : State) : List Nat := s.rdData.map (·.1) ++ s.rdPending.map (·.1)

/-- The block may issue this read: the address is in the read set, within the frame, and has not been
read in this transaction (rules R43 and R44). -/
def State.mayIssue (s : State) (a : Nat) : Bool :=
  keyAddrs.contains a && decide (a < s.lenR) && !s.issued.contains a

/-- The byte that the extraction still needs next, if it needs one. -/
def State.needs (s : State) : Option Nat := nextRead s.lenR (sampled s.rdData)

/-- BUSY may end: the bytes at hand settle the outcome and no read is outstanding (rule R147). -/
def State.mayFinish (s : State) : Bool := s.needs.isNone && s.rdPending.isEmpty

/-- The realisation's move when it follows no schedule: it reads the next byte it needs, waits for
its data, and finishes. -/
def State.ownMove (s : State) : Move :=
  match s.needs with
  | some a => if s.mayIssue a then .issue a else .wait
  | none => if s.rdPending.isEmpty then .finish else .wait

/-- The realisation's move in this cycle. A scheduled move that the rules do not let it make is a wait:
it "may not issue a read that breaks rule R43" (rule R44) and may not finish before it can. -/
def State.plan (s : State) : Move :=
  match s.sched with
  | [] => s.ownMove
  | .issue a :: _ => if s.mayIssue a then .issue a else .wait
  | .wait :: _ => .wait
  | .finish :: _ => if s.mayFinish then .finish else .wait

/-- The read request goes out; its data comes `RD_LAT` cycles later (rule R42). -/
def State.issueRead (a : Nat) (s : State) : State :=
  { s with rdPending := s.rdPending ++ [(a, s.rdLat)] }

/-- The scheduled move is used up. -/
def State.popMove (s : State) : State := { s with sched := s.sched.tail }

/-- The cycle of BUSY up to the realisation's move: inputs taken, a breach noted, data sampled. -/
def State.busyCycle (s : State) : State :=
  (s.endCycle.noteDuty s.now).sample

/-! ### The rising edge -/

/-- What the edge that ends a cycle does. -/
inductive Edge where
  /-- It runs this instruction on this state. -/
  | run (i : Instr) (s : State)
  /-- It leaves this state, with no instruction. -/
  | rest (s : State)
  /-- It is a fault. -/
  | stop (f : Fault)
deriving DecidableEq, Repr

/-- The edge of a BUSY cycle: the move is made, and a finish runs the outcome row that the key and the
length select (rules R142 and R68). -/
def busyEdge (s : State) : Edge :=
  match s.plan with
  | .issue a => .rest (s.popMove.issueRead a)
  | .wait => .rest s.popMove
  | .finish => .run (decodeKey s.lenR (sampledKey s.rdData)) s.popMove

/-- The edge of a RESP cycle with `rsp_ready = 1`: the response handshake (rule R143). A pair of codes
that no extraction produces is a fault of the realisation (item I16). -/
def deliverEdge (s : State) : Edge :=
  if legalCodes s.resStatus s.resDetail = true then .rest s.delivered
  else .stop (.reservedResponse s.resStatus s.resDetail)

/-- The rising edge. "Reset wins over every other transition at the same edge" (rule R230). -/
def State.edge (s : State) : Edge :=
  if s.now.rst = true then .rest s.endCycle.resetEdge
  else
    match s.phase with
    | .idle =>
      if s.now.reqValid = true then .run (decodeRequest (BitVec.ofNat s.lenW s.now.reqLen)) s.endCycle
      else .rest s.endCycle
    | .busy => busyEdge s.busyCycle
    | .resp => if s.now.rspReady = true then deliverEdge s.endCycle else .rest s.endCycle

/-- After a request handshake, a breach in the same cycle counts as one during the transaction: only the
writes completed before it are ordered before its reads (rules R50 and R52; log entry 8). -/
def afterRun (c : PortIn) :
    Host.Outcome State Fault Refusal → Host.Outcome State Fault Refusal
  | .next s => .next (s.noteDuty c)
  | .fault f => .fault f
  | .refused r => .refused r

/-! ### A word as the next instruction -/

/-- The request of this length is offered in the coming cycle. -/
def State.offering (n : Nat) (s : State) : State :=
  { s with phase := .idle, inputs := { PortIn.quiet with reqValid := true, reqLen := n } :: s.inputs }

/-- The key bytes as writes to FB, and, the same list, as answers of the read port. -/
def keyBytes (k : BitVec 32) : List (Nat × Byte) :=
  keyAddrs.zip [k.extractLsb' 24 8, k.extractLsb' 16 8, k.extractLsb' 8 8, k.extractLsb' 0 8]

/-- A frame of `len` bytes with this key stands in FB, the block is in BUSY with its key bytes read,
and the coming cycle ends BUSY. -/
def State.holdingKey (len : Nat) (k : BitVec 32) (s : State) : State :=
  { s with
    phase := .busy, lenR := len, fb := Memory.writes s.fb (keyBytes k)
    rdPending := [], rdData := (keyBytes k).filter (fun p => decide (p.1 < len))
    disturbed := false, inputs := PortIn.quiet :: s.inputs, sched := .finish :: s.sched }

/-- The word of an encoded instruction (Decode.lean) placed where the next step runs it. The words are
those of `LEN_W = 16` (log entry 9). -/
def placeBytes (s : State) : List Byte → State
  | [hi, lo] => s.offering (pair hi lo)
  | [b12, b13, b14, b23, hi, lo] =>
      s.holdingKey (maxFrameLen 16 - pair hi lo) (makeKey b12 b13 b14 b23)
  | _ => s

end Sys2Proof.Machine
end

