-- ==== Sys2Proof/Machine/Accept.lean ====
section
/-! DEFINITION. The accept row: stage U2 forms the payload offset and stage P3 returns it. -/

namespace Sys2Proof.Machine

/-- `ACCEPT`, stage P3 (rules R109 and R112): "`return Result(OK, NONE, offset, len_r - offset)`". -/
def execAccept (ihl : BitVec 4) (s : State) : Host.Outcome State Fault Refusal :=
  s.concludeIf (decide (minIhl ≤ ihl.toNat ∧ payloadOffset ihl < s.lenR))
    ((((s.latchEthType etherTypeIpv4).latchVihl (versionIpv4 ++ ihl)).latchProto protoUdp).concluded
      (Result.accept (payloadOffset ihl) (s.lenR - payloadOffset ihl)).bits)

end Sys2Proof.Machine
end

