-- ==== Sys2Proof/Machine/Reject.lean ====
section
/-! DEFINITION. The nine reject rows. Each writes the header registers of the stages that it has passed
(rule R23) and then takes the one shared effect of a rejection (rule R204). -/

namespace Sys2Proof.Machine

/-- `REJ_ETH_TRUNCATED`, stage E1 (rule R102). -/
def execRejEthTruncated (s : State) : Host.Outcome State Fault Refusal :=
  s.concludeIf (decide (s.lenR < ethHdrLen)) (s.rejected .ethTruncated)

/-- `REJ_BAD_ETHERTYPE`, stage E2 (rule R103). -/
def execRejBadEthertype (et : BitVec 16) (s : State) : Host.Outcome State Fault Refusal :=
  s.concludeIf (et != etherTypeIpv4 && decide (ethHdrLen ≤ s.lenR))
    ((s.latchEthType et).rejected .badEthertype)

/-- `REJ_IPV4_TRUNCATED`, stage I1 (rule R104). -/
def execRejIpv4Truncated (s : State) : Host.Outcome State Fault Refusal :=
  s.concludeIf
    (decide (ethHdrLen ≤ s.lenR ∧ s.lenR < ethHdrLen + ipv4MinHdrLen))
    ((s.latchEthType etherTypeIpv4).rejected .ipv4Truncated)

/-- `REJ_BAD_VERSION`, stage I2 (rule R105). -/
def execRejBadVersion (version ihl : BitVec 4) (s : State) : Host.Outcome State Fault Refusal :=
  s.concludeIf (version != versionIpv4 && decide (ethHdrLen + ipv4MinHdrLen ≤ s.lenR))
    (((s.latchEthType etherTypeIpv4).latchVihl (version ++ ihl)).rejected .badVersion)

/-- `REJ_BAD_IHL`, stage I3 (rule R106). -/
def execRejBadIhl (ihl : BitVec 4) (s : State) : Host.Outcome State Fault Refusal :=
  s.concludeIf
    (decide (ihl.toNat < minIhl ∧ ethHdrLen + ipv4MinHdrLen ≤ s.lenR))
    (((s.latchEthType etherTypeIpv4).latchVihl (versionIpv4 ++ ihl)).rejected .badIhl)

/-- `REJ_IPV4_OPTIONS_TRUNCATED`, stage I4 (rule R107). -/
def execRejIpv4OptionsTruncated (ihl : BitVec 4) (s : State) :
    Host.Outcome State Fault Refusal :=
  s.concludeIf
    (decide (minIhl + 1 ≤ ihl.toNat ∧ ethHdrLen + ipv4MinHdrLen ≤ s.lenR ∧
      s.lenR < ipEnd ihl))
    (((s.latchEthType etherTypeIpv4).latchVihl (versionIpv4 ++ ihl)).rejected
      .ipv4OptionsTruncated)

/-- `REJ_NOT_UDP`, stage U1 (rule R108). -/
def execRejNotUdp (ihl : BitVec 4) (proto : Byte) (s : State) :
    Host.Outcome State Fault Refusal :=
  s.concludeIf
    (proto != protoUdp && decide (minIhl ≤ ihl.toNat ∧ ipEnd ihl ≤ s.lenR))
    ((((s.latchEthType etherTypeIpv4).latchVihl (versionIpv4 ++ ihl)).latchProto proto).rejected
      .nonUdpProtocol)

/-- `REJ_UDP_HDR_TRUNCATED`, stage P1 (rule R110). -/
def execRejUdpHdrTruncated (ihl : BitVec 4) (s : State) : Host.Outcome State Fault Refusal :=
  s.concludeIf
    (decide (minIhl ≤ ihl.toNat ∧ ipEnd ihl ≤ s.lenR ∧ s.lenR < payloadOffset ihl))
    ((((s.latchEthType etherTypeIpv4).latchVihl (versionIpv4 ++ ihl)).latchProto protoUdp).rejected
      .udpHdrTruncated)

/-- `REJ_EMPTY_PAYLOAD`, stage P2 (rule R111). -/
def execRejEmptyPayload (ihl : BitVec 4) (s : State) : Host.Outcome State Fault Refusal :=
  s.concludeIf (decide (minIhl ≤ ihl.toNat ∧ s.lenR = payloadOffset ihl))
    ((((s.latchEthType etherTypeIpv4).latchVihl (versionIpv4 ++ ihl)).latchProto protoUdp).rejected
      .emptyPayload)

end Sys2Proof.Machine
end

