-- ==== Sys2Proof/Machine/Request.lean ====
section
/-! DEFINITION. The request family: `EXTRACT`. -/

namespace Sys2Proof.Machine

/-- `EXTRACT` (rule R150), its first event, the request handshake: "`len_r <- req_len` and
`phase <- BUSY`" (rule R141). Its second event, the extraction, is the outcome row that the header
selects (rule R142), and its third the response handshake (rule R143); each is a step of its own.
Outside IDLE the request is not accepted and has no effect (rules R142, R145 and R206). -/
def execExtract (reqLen : Nat) (s : State) : Host.Outcome State Fault Refusal :=
  if s.phase = .idle then .next (s.accepted reqLen) else .next s

end Sys2Proof.Machine
end

