-- ==== Sys2Proof/Machine/Dispatch.lean ====
section
/-! DEFINITION. One arm per instruction. -/

namespace Sys2Proof.Machine

def exec (i : Instr) (s : State) : Host.Outcome State Fault Refusal :=
  match i with
  | .extract reqLen => Sys2Proof.Machine.execExtract reqLen s
  | .rejEthTruncated => Sys2Proof.Machine.execRejEthTruncated s
  | .rejBadEthertype et => Sys2Proof.Machine.execRejBadEthertype et s
  | .rejIpv4Truncated => Sys2Proof.Machine.execRejIpv4Truncated s
  | .rejBadVersion version ihl => Sys2Proof.Machine.execRejBadVersion version ihl s
  | .rejBadIhl ihl => Sys2Proof.Machine.execRejBadIhl ihl s
  | .rejIpv4OptionsTruncated ihl => Sys2Proof.Machine.execRejIpv4OptionsTruncated ihl s
  | .rejNotUdp ihl proto => Sys2Proof.Machine.execRejNotUdp ihl proto s
  | .rejUdpHdrTruncated ihl => Sys2Proof.Machine.execRejUdpHdrTruncated ihl s
  | .rejEmptyPayload ihl => Sys2Proof.Machine.execRejEmptyPayload ihl s
  | .accept ihl => Sys2Proof.Machine.execAccept ihl s

end Sys2Proof.Machine
end

