-- ==== Sys2Proof/Machine/Step.lean ====
section
/-! DEFINITION. One step: one clock cycle and the rising edge that ends it. -/

namespace Sys2Proof.Machine

/-- One clock cycle. A request handshake runs `EXTRACT`; the edge that ends BUSY runs the outcome row
that the header selects; every other edge runs no instruction. -/
def step (s : State) : Host.Outcome State Fault Refusal :=
  match s.edge with
  | .run i t => afterRun s.now (exec i t)
  | .rest t => .next t
  | .stop f => .fault f

/-- The state with this table word as the next instruction: a request is offered, or a frame with this
key stands in FB and BUSY is about to end (log entry 9). -/
def State.withFetchWord (s : State) (nbits w : Nat) : State := placeBytes s (tableBytes nbits w)

end Sys2Proof.Machine
end

