-- ==== Sys2Proof/Machine/Ports.lean ====
section
/-! DEFINITION. The output ports during the present cycle (rules R140, R147 and R148). -/

namespace Sys2Proof.Machine

/-- `req_ready = (phase == IDLE) and (rst == 0)` (rule R148). -/
def State.reqReady (s : State) : Bool := decide (s.phase = .idle) && !s.now.rst

/-- `rsp_valid = (phase == RESP) and (rst == 0)` (rule R148). -/
def State.rspValid (s : State) : Bool := decide (s.phase = .resp) && !s.now.rst

/-- `rsp_status = res_status` (rule R148). -/
def State.rspStatus (s : State) : BitVec 3 := s.resStatus

/-- `rsp_detail = res_detail` (rule R148). -/
def State.rspDetail (s : State) : BitVec 4 := s.resDetail

/-- `rsp_offset = res_offset` (rule R148). -/
def State.rspOffset (s : State) : Nat := s.resOffset

/-- `rsp_length = res_length` (rule R148). -/
def State.rspLength (s : State) : Nat := s.resLength

/-- The read request of this cycle, if `fb_rd_en = 1`: only in BUSY (rule R147) and not while
`rst = 1` (rule R230). -/
def State.readRequest (s : State) : Option Nat :=
  if s.phase = .busy ∧ s.now.rst = false then
    match s.busyCycle.plan with
    | .issue a => some a
    | .wait | .finish => none
  else none

/-- `fb_rd_en` (rule R140). -/
def State.fbRdEn (s : State) : Bool := s.readRequest.isSome

/-- `fb_rd_addr` (rule R140). The spec does not say what the port carries while `fb_rd_en = 0`: there it is
`other`, what the realisation happens to drive, of which the port has the low `LEN_W` bits, and a claim
holds for every value of it (DESIGN CHOICE, log entry 23). -/
def State.fbRdAddr (other : Nat) (s : State) : Nat :=
  s.readRequest.getD (lowBits s.lenW other)

/-- The bytes that the reads of this transaction get on `fb_rd_data` in this cycle, each with the address
it answers (rules R42, R145); these and no others the block samples. With one read a cycle and one latency
there is at most one. -/
def State.dueData (s : State) : List (Nat × Byte) :=
  let t := s.endCycle.noteDuty s.now
  if s.phase = .busy ∧ s.now.rst = false then t.arriving.map (fun a => (a, t.answer a)) else []

/-- What is on `fb_rd_data` in this cycle. Where no read of this transaction is due it is `stray`, which
may be nothing or any byte for any address: a read issued before a reset may still be answered, in the
reset's cycle or later, and the block ignores the answer (rule R231). The spec fixes neither whether nor
with what, so a claim holds for every `stray` (DESIGN CHOICE, log entry 24). -/
def State.fbRdData (stray : List (Nat × Byte)) (s : State) : List (Nat × Byte) :=
  if s.dueData = [] then stray else s.dueData

end Sys2Proof.Machine
end

