-- ==== Sys2Proof/Machine/Script.lean ====
section
/-! DEFINITION. The transaction scripts of rules R74 and R75: what each statement makes the neighbours
do, as a run of the machine. -/

namespace Sys2Proof.Machine

/-- A statement of the script notation (rule R74). -/
inductive Stmt where
  /-- `RESET`: assert `rst` for one cycle. -/
  | reset
  /-- `LOAD <bytes>`: the frame source writes the bytes into `FB[0 ..]`. -/
  | load (bytes : List Byte)
  /-- `REQ <n>`: request handshake with `req_len = n`. -/
  | req (n : Nat)
  /-- `WAIT`: idle cycles until `rsp_valid = 1`, at most `busyBound` of them (log entry 20). -/
  | wait
  /-- `TAKE`: response handshake. -/
  | take
  /-- `STALL <k>`: `k` cycles with `rsp_ready = 0` and `req_valid = 0`. -/
  | stall (k : Nat)
deriving DecidableEq, Repr

/-- One cycle with these inputs, before those already in the list. -/
def feed (c : PortIn) (s : State) : Host.Outcome State Fault Refusal :=
  step { s with inputs := c :: s.inputs }

/-- The writes that put these bytes at addresses `base` and up. -/
def loadWrites (base : Nat) : List Byte → List (Nat × Byte)
  | [] => []
  | b :: bs => (base, b) :: loadWrites (base + 1) bs

/-- `k` quiet cycles. -/
def quietCycles : Nat → State → Host.Outcome State Fault Refusal
  | 0, s => .next s
  | k + 1, s =>
    match feed .quiet s with
    | .next t => quietCycles k t
    | .fault f => .fault f
    | .refused r => .refused r

/-- Quiet cycles until the phase is RESP, at most `fuel` of them. -/
def waitCycles : Nat → State → Host.Outcome State Fault Refusal
  | 0, s => .next s
  | fuel + 1, s =>
    if s.phase = .resp then .next s
    else
      match feed .quiet s with
      | .next t => waitCycles fuel t
      | .fault f => .fault f
      | .refused r => .refused r

/-- The cycles that reads already issued can still take. -/
def pendingCycles (s : State) : Nat := (s.rdPending.map (·.2)).sum

/-- A bound on the cycles that BUSY can still last: one for each scheduled move, `RD_LAT` and one for
each byte that can still be read, what is outstanding, and the last one (rules R118, R146). -/
def busyBound (s : State) : Nat :=
  s.sched.length
    + (keyAddrs.filter (fun a => !s.issued.contains a)).length * (s.rdLat + 1)
    + pendingCycles s + 1

/-- One statement (rule R74). The notation does not say what a statement does in a phase in which its
handshake cannot occur, `REQ` outside IDLE and `TAKE` outside RESP: here it spends its one cycle and no
handshake happens. `LOAD` is given a meaning "while the FLE is `IDLE`" only: here it writes FB in any
phase, which in BUSY and in RESP is a breach of the frame source's duty like any other write (rules R51
and R235). `WAIT` begun with no transaction running gives up after `busyBound` quiet cycles, and
`LOAD` takes one cycle however many bytes it writes (DESIGN CHOICE, log entry 20). -/
def Stmt.run : Stmt → State → Host.Outcome State Fault Refusal
  | .reset, s => feed { PortIn.quiet with rst := true } s
  | .load bytes, s => feed { PortIn.quiet with fbWrites := loadWrites 0 bytes } s
  | .req n, s => feed { PortIn.quiet with reqValid := true, reqLen := n } s
  | .wait, s => waitCycles (busyBound s) s
  | .take, s => feed { PortIn.quiet with rspReady := true } s
  | .stall k, s => quietCycles k s

/-- A script, statement by statement. -/
def runScript : List Stmt → State → Host.Outcome State Fault Refusal
  | [], s => .next s
  | c :: cs, s =>
    match c.run s with
    | .next t => runScript cs t
    | .fault f => .fault f
    | .refused r => .refused r

/-- The pseudo-instruction `EXTRACT <bytes>` (rule R75). -/
def extractScript (bytes : List Byte) : List Stmt :=
  [.load bytes, .req bytes.length, .wait, .take]

end Sys2Proof.Machine
end

