-- ==== Sys2Proof/Machine/Extract.lean ====
section
/-! DEFINITION. The function `Extract` as rule R101 writes it, stage by stage over a memory, and the
set of bytes that it reads. The machine does not run this function: it runs the row that the
classification table selects. That the two agree is a statement. -/

namespace Sys2Proof.Machine

/-- `Extract` (rule R101), with `rd a` for `MemRead(a, 1)`. -/
def Extract (len : Nat) (rd : Nat → Byte) : Result :=
  if len < 14 then .reject .ethTruncated
  else if 256 * (rd 12).toNat + (rd 13).toNat ≠ 0x0800 then .reject .badEthertype
  else if len < 34 then .reject .ipv4Truncated
  else if (rd 14).toNat / 16 ≠ 4 then .reject .badVersion
  else
    let ihl := (rd 14).toNat % 16
    if ihl < 5 then .reject .badIhl
    else if len < 14 + 4 * ihl then .reject .ipv4OptionsTruncated
    else if (rd 23).toNat ≠ 17 then .reject .nonUdpProtocol
    else
      let offset := 14 + 4 * ihl + 8
      if len < offset then .reject .udpHdrTruncated
      else if len = offset then .reject .emptyPayload
      else .accept offset (len - offset)

/-- The addresses that the stages of rule R101 read, in its order (rules R44 and R113). -/
def extractReads (len : Nat) (rd : Nat → Byte) : List Nat :=
  if len < 14 then []
  else if 256 * (rd 12).toNat + (rd 13).toNat ≠ 0x0800 then [12, 13]
  else if len < 34 then [12, 13]
  else if (rd 14).toNat / 16 ≠ 4 then [12, 13, 14]
  else if (rd 14).toNat % 16 < 5 then [12, 13, 14]
  else if len < 14 + 4 * ((rd 14).toNat % 16) then [12, 13, 14]
  else [12, 13, 14, 23]

/-- `MemRead` on a whole frame given as bytes, address 0 first (rule R40). -/
def frameByte (frame : List Byte) (a : Nat) : Byte := frame.getD a 0#8

end Sys2Proof.Machine
end

