-- ==== Sys2Proof/Machine/Handoff.lean ====
section
/-! DEFINITION. What a response hands on: the payload to the record decoder (rules R170 to R172) and
the diagnostic to its consumer (rule R212). The payload is a descriptor, not a copy: its bytes are read
out of FB, in the RESP phase or later, for as long as the frame source leaves the frame alone. -/

namespace Sys2Proof.Machine

/-- The bytes `FB[offset .. offset + length - 1]` (rule R49), as a reader of FB gets them. While the frame
has been left alone they are FB's; after that each is a free draw, as a read of a transaction is
(rules R51, R172 and R235; log entry 21). `draw` numbers the reads of this reader. -/
def payloadBytes (fb : Memory) (draw offset length : Nat) (intact : Bool) : List Byte :=
  (List.range length).map fun j =>
    if intact = true then Memory.read fb (offset + j)
    else Config.freePayload (draw + j) (offset + j)

/-- What the response port hands downstream in the present cycle: the payload when `rsp_valid = 1` and the
status is OK, otherwise nothing (rules R170 and R237). -/
def State.handoff (draw : Nat) (s : State) : Option (List Byte) :=
  if s.rspValid = true ∧ s.rspStatus = Status.ok.code then
    some (payloadBytes s.fb draw s.rspOffset s.rspLength s.payloadIntact)
  else none

/-- A payload handed downstream, as it reads now. -/
def Loan.payload (draw : Nat) (fb : Memory) (l : Loan) : List Byte :=
  payloadBytes fb draw l.offset l.length l.intact

/-- The diagnostics of an output log, one for each rejected frame, in order (rule R212). -/
def diagnostics (log : List Response) : List (BitVec 3 × BitVec 4) :=
  (log.filter (fun r => r.status != Status.ok.code)).map (fun r => (r.status, r.detail))

end Sys2Proof.Machine
end

