-- ==== Sys2Proof/Machine/Run.lean ====
section
/-! DEFINITION. What is said of a run of several cycles: its handshakes (rules R16 and R144) and its
end (rule R240). -/

namespace Sys2Proof.Machine

/-- A request handshake happens in the present cycle (rules R16 and R141). -/
def State.requestHandshake (s : State) : Bool := s.reqReady && s.now.reqValid

/-- A response handshake happens in the present cycle (rules R16 and R143). -/
def State.responseHandshake (s : State) : Bool := s.rspValid && s.now.rspReady

/-- A reset abandons a transaction at this cycle's edge (rule R231). -/
def State.abandons (s : State) : Bool := s.now.rst && decide (s.phase ≠ .idle)

/-- How many of the first `k` cycles of the run have the event. -/
def countCycles (event : State → Bool) : Nat → State → Nat
  | 0, _ => 0
  | k + 1, s =>
    (if event s = true then 1 else 0) +
      match step s with
      | .next t => countCycles event k t
      | .fault _ | .refused _ => 0

/-- The run from `s` is finished after `k` cycles (rule R240): the phase is IDLE, each request
handshake has had its response handshake, and no reset abandoned a transaction. The spec does not say
whether a request that was offered and not accepted counts among those "the frame source made": here a
request is made at its handshake, and only the handshakes of the first `k` cycles count (DESIGN CHOICE,
log entry 22). -/
def finishedAfter (k : Nat) (s : State) : Prop :=
  ∃ t, Sys2Proof.core.run k s = .next t ∧ t.phase = .idle ∧
    countCycles State.requestHandshake k s = countCycles State.responseHandshake k s ∧
    countCycles State.abandons k s = 0

end Sys2Proof.Machine
end

