-- ==== Sys2Proof/Safety.lean ====
section
/-! DEFINITION. What counts as a safe run, in the terms that statements use: the invariant of every
state that a run from reset reaches, the state that an outcome leaves, and a transaction from its
request to its response. -/

namespace Sys2Proof.Machine

/-- The field IHL of a byte of version and IHL (rule R64). -/
abbrev ihlOf (v : Byte) : Nat := (v.extractLsb' 0 4).toNat

/-- A response that an extraction of a frame of `len` bytes can leave, `v` being the byte of version and
IHL that it has read: one of the ten pairs of codes (rule R71); a zero descriptor on a reject (rule R24);
on OK the offset `22 + 4 * IHL` with IHL at least 5, and a length of at least 1 that ends at the frame's
end (rules R109, R112 and R115). -/
def responseFits (len : Nat) (v : Byte) (r : Response) : Prop :=
  legalCodes r.status r.detail = true ∧
  (r.status ≠ Status.ok.code → r.offset = 0 ∧ r.length = 0) ∧
  (r.status = Status.ok.code →
    5 ≤ ihlOf v ∧ r.offset = 22 + 4 * ihlOf v ∧ 1 ≤ r.length ∧ r.offset + r.length = len)

/-- The result registers: always a legal pair, with a zero descriptor on a reject; in RESP the response
of a frame of `len_r` bytes whose byte of version and IHL is in `vihl`. -/
def resultOk (s : State) : Prop :=
  legalCodes s.resStatus s.resDetail = true ∧
  (s.resStatus ≠ Status.ok.code → s.resOffset = 0 ∧ s.resLength = 0) ∧
  (s.phase = .resp → responseFits s.lenR s.vihl s.response)

/-- The read port in BUSY: no address twice, each in the read set and within the frame (rules R43 and
R44), each outstanding read at most `RD_LAT` cycles from its data (rule R42), and, while the frame
source keeps its duty, each answered byte the byte of FB (rule R50). Outside BUSY it is at rest
(rule R147). -/
def readPortOk (s : State) : Prop :=
  (s.phase ≠ .busy → s.rdPending = [] ∧ s.rdData = [] ∧ s.disturbed = false) ∧
  s.issued.Nodup ∧
  (∀ a ∈ s.issued, a ∈ keyAddrs ∧ a < s.lenR) ∧
  (∀ p ∈ s.rdPending, 1 ≤ p.2 ∧ p.2 ≤ s.rdLat) ∧
  (s.disturbed = false → ∀ p ∈ s.rdData, p.2 = memRead s p.1)

/-- The payload of an accepted frame lies in FB, past every header byte, and is not empty (rule R171). -/
def Loan.fits (lenW : Nat) (l : Loan) : Prop :=
  42 ≤ l.offset ∧ 1 ≤ l.length ∧ l.offset + l.length < 2 ^ lenW

/-- The registers of `LEN_W` bits hold numbers of `LEN_W` bits (rules R20, R22 and R24). -/
def registersFit (s : State) : Prop :=
  s.lenR < 2 ^ s.lenW ∧ s.resOffset < 2 ^ s.lenW ∧ s.resLength < 2 ^ s.lenW

/-- The invariant of the machine. -/
structure Invariant (s : State) : Prop where
  /-- FB is in its canonical form. -/
  canonical : Memory.wf s.fb
  /-- FB has the `2^LEN_W` addresses of rule R40 and no other. -/
  inside : Memory.inside s.lenW s.fb
  registers : registersFit s
  result : resultOk s
  readPort : readPortOk s
  loans : ∀ l ∈ s.loans, l.fits s.lenW
  /-- `RD_LAT >= 1` (rule R10). -/
  rdLat : 1 ≤ s.rdLat
  /-- `LEN_W >= 7` (rule R10). -/
  lenW : 7 ≤ s.lenW

/-- The block's registers (rule R20) hold the same in both states. -/
def sameRegisters (s t : State) : Prop :=
  t.phase = s.phase ∧ t.lenR = s.lenR ∧ t.ethType = s.ethType ∧ t.vihl = s.vihl ∧
  t.proto = s.proto ∧ t.resStatus = s.resStatus ∧ t.resDetail = s.resDetail ∧
  t.resOffset = s.resOffset ∧ t.resLength = s.resLength

/-- The state that an outcome leaves (rules R23, R24 and R142), written out field by field: these header
registers, these result registers, RESP, the read port at rest, the payload intact unless the frame
source has broken its duty (log entry 21), and everything else as it was. -/
def outcomeState (et : BitVec 16) (v p : Byte) (status : BitVec 3) (detail : BitVec 4)
    (offset length : Nat) (s : State) : State :=
  { s with
    ethType := et, vihl := v, proto := p
    resStatus := status, resDetail := detail, resOffset := offset, resLength := length
    phase := .resp, rdPending := [], rdData := [], disturbed := false
    payloadIntact := !s.disturbed }

/-- The neighbours leave a frame of `len` bytes alone in all the coming cycles: no reset, and no breach
of the frame source's duty (rules R152 and R235). -/
def quietFor (len : Nat) (cs : List PortIn) : Prop :=
  ∀ c ∈ cs, c.rst = false ∧ breaksDuty len c = false

/-- A request of `n` bytes is offered in IDLE in the coming cycle, and from then on the neighbours keep
their duty to the frame and do not reset (rules R152 and R235). -/
def opensTransaction (n : Nat) (s : State) : Prop :=
  Invariant s ∧ s.phase = .idle ∧ n < 2 ^ s.lenW ∧
    ∃ c cs, s.inputs = c :: cs ∧ c.reqValid = true ∧ c.reqLen = n ∧ quietFor n (c :: cs)

/-- The transaction that the first of the coming cycles opens has its response on the port after `k`
cycles, in the state `t`, and not before: `k` is its latency `LAT` (rule R146). -/
def answersAfter (k : Nat) (s t : State) : Prop :=
  Sys2Proof.core.run k s = .next t ∧ t.phase = .resp ∧
    ∀ j, 1 ≤ j → j < k → ∃ u, Sys2Proof.core.run j s = .next u ∧ u.phase = .busy

end Sys2Proof.Machine
end

