-- ==== Sys2Proof/Certificates/Slice0/Obligations.lean ====
section
/-! DEFINITION. The statements for the provers. -/

open Sys2Proof Sys2Proof.Machine

/-! ### Encodings -/

/-- Words and frames written out from the spec's encodings (rules R68 and R150, section 0 of
95_test_vectors.md) decode to what they stand for. -/
def Obligations.DecodedWordsFollowTheSpec : Prop :=
  decodeTableWord 16 0x002B = some (.extract 43) ∧
  decodeTableWord 32 0x86DD6011 = some (.rejBadEthertype 0x86DD#16) ∧
  decodeTableWord 32 0x08006511 = some (.rejBadVersion 6#4 5#4) ∧
  decodeTableWord 32 0x08004411 = some (.rejBadIhl 4#4) ∧
  decodeTableWord 32 0x08004506 = some (.rejNotUdp 5#4 6#8) ∧
  decodeTableWord 32 0x08004611 = some (.accept 6#4) ∧
  decodeKey 13 0x08004511#32 = .rejEthTruncated ∧
  decodeKey 33 0x08004511#32 = .rejIpv4Truncated ∧
  decodeKey 60 0x08004F11#32 = .rejIpv4OptionsTruncated 15#4 ∧
  decodeKey 41 0x08004511#32 = .rejUdpHdrTruncated 5#4 ∧
  decodeKey 42 0x08004511#32 = .rejEmptyPayload 5#4

/-- The encoder's bytes of a well-formed instruction, for a frame length that its row fits, decode to
that instruction: no bit of an operand is dropped. The byte layout is that of `LEN_W = 16` (log entry 9);
the word on `req_len` reads back for every `LEN_W`. -/
def Obligations.DecodeReadsBackEncode : Prop :=
  (∀ (i : Instr) (len : Nat), i.wellFormed 16 = true → i.fitsLength len = true →
    len ≤ maxFrameLen 16 → decode (encode len i) = .ok i) ∧
  (∀ lenW n : Nat, (Instr.extract n).wellFormed lenW = true →
    decodeRequest (encodeRequest lenW n) = .extract n)

/-- Rule R68: the table's rows "are tried in priority order and the first whose condition holds is the
outcome". Every key and every length select the outcome of a row that holds of them, no row above it
holds, and that outcome is one that the row's conditions admit. -/
def Obligations.SelectedRowMeetsItsConditions : Prop :=
  ∀ (len : Nat) (k : BitVec 32),
    (∃ (above below : List Row) (r : Row), rejectRows ++ [rowAccept] = above ++ r :: below ∧
      r.holds k len = true ∧ (∀ q ∈ above, q.holds k len = false) ∧
      decodeKey len k = r.outcome k) ∧
    (decodeKey len k).isOutcome = true ∧
    (∀ lenW, (decodeKey len k).wellFormed lenW = true) ∧
    (decodeKey len k).fitsLength len = true

/-- Rules R70 and R71: the codes are those of the tables, the detail codes are unique, a detail
determines its status, and the pairs that count as legal are exactly the ten of the table. -/
def Obligations.DetailCodesDetermineStatus : Prop :=
  [Status.ok, .frameMalformed, .notUdp, .payloadTruncated, .notARecord, .emptyRecord].map Status.code =
    [0b000#3, 0b001#3, 0b010#3, 0b011#3, 0b100#3, 0b101#3] ∧
  Detail.all.map (fun d => (d.code, d.status.code)) =
    [(0x0#4, 0b000#3), (0x1#4, 0b001#3), (0x2#4, 0b001#3), (0x3#4, 0b001#3), (0x4#4, 0b001#3),
     (0x5#4, 0b001#3), (0x6#4, 0b001#3), (0x7#4, 0b010#3), (0x8#4, 0b011#3), (0x9#4, 0b011#3)] ∧
  (∀ d d' : Detail, d.code = d'.code → d = d') ∧
  (∀ (st : BitVec 3) (dt : BitVec 4),
    legalCodes st dt = true ↔ ∃ d : Detail, d.code = dt ∧ d.status.code = st)

/-- Rule R21: the phases, their codes, and the unused code 0b11, which is treated as IDLE. -/
def Obligations.UnusedPhaseCodeActsAsIdle : Prop :=
  Phase.idle.code = 0b00#2 ∧ Phase.busy.code = 0b01#2 ∧ Phase.resp.code = 0b10#2 ∧
  (∀ p : Phase, p = .idle ∨ p = .busy ∨ p = .resp) ∧
  (∀ p : Phase, phaseOfCode p.code = p) ∧ (∀ p : Phase, p.code ≠ 0b11#2) ∧
  phaseOfCode 0b11#2 = .idle

/-! ### The request -/

/-- `EXTRACT` in IDLE: "`len_r <- req_len` and `phase <- BUSY`", with the read port at rest and every
other field as it was; outside IDLE it has no effect. Of a request's length `req_len` carries the low
`LEN_W` bits (log entry 1), which for a well-formed request is all of it. The read port's three fields
are the model's (log entry 3). -/
def Obligations.RequestHandshakeOpensTransaction : Prop :=
  (∀ (n : Nat) (s : State), s.phase = .idle →
    exec (.extract n) s = .next { s with
      lenR := n % 2 ^ s.lenW, phase := .busy, rdPending := [], rdData := [], disturbed := false }) ∧
  (∀ (n : Nat) (s : State), s.phase = .idle → (Instr.extract n).wellFormed s.lenW = true →
    ∃ t, exec (.extract n) s = .next t ∧ t.lenR = n) ∧
  (∀ (n : Nat) (s : State), s.phase ≠ .idle → exec (.extract n) s = .next s)

/-! ### The outcome rows: when each is selected, what is needed before it, and its effect

The effect is that of the edge which ends BUSY (rule R142). There the row writes the header registers of
the stages that it has passed (rule R23), all at that edge: the model's choice, log entry 11. The read
port's fields are the model's and are cleared there (log entry 3), and the mark of the payload's lifetime
is the model's and is set there (log entry 21). -/

/-- Stage E1 (rule R102): no further byte is needed, and a realisation that follows no schedule issues no
read (log entry 3 says how "No read is issued" is read beside rule R44). The row passes no stage that
writes a header register (log entry 11). -/
def Obligations.ShortFrameIsEthTruncated : Prop :=
  (∀ (len : Nat) (k : BitVec 32), decodeKey len k = .rejEthTruncated ↔ len < 14) ∧
  (∀ (len : Nat) (rd : Nat → Option Byte), len < 14 → nextRead len rd = none) ∧
  (∀ s : State, s.phase = .busy → s.lenR < 14 → s.sched = [] → s.readRequest = none) ∧
  (∀ s : State, s.phase = .busy → s.lenR < 14 →
    exec .rejEthTruncated s =
      .next (outcomeState s.ethType s.vihl s.proto 0b001#3 0x1#4 0 0 s))

/-- Stage E2 (rule R103). The row writes `eth_type` at the edge that ends BUSY (log entry 11) and clears
the read port's fields (log entry 3). -/
def Obligations.OtherEthertypeIsBadEthertype : Prop :=
  (∀ (len : Nat) (b12 b13 b14 b23 : Byte) (et : BitVec 16),
    decodeKey len (makeKey b12 b13 b14 b23) = .rejBadEthertype et ↔
      14 ≤ len ∧ b12 ++ b13 = et ∧ et ≠ 0x0800#16) ∧
  (∀ (len : Nat) (rd : Nat → Option Byte), 14 ≤ len →
    (rd 12 = none → nextRead len rd = some 12) ∧
    (∀ b12, rd 12 = some b12 → rd 13 = none → nextRead len rd = some 13) ∧
    (∀ b12 b13, rd 12 = some b12 → rd 13 = some b13 → b12 ++ b13 ≠ 0x0800#16 →
      nextRead len rd = none)) ∧
  (∀ (et : BitVec 16) (s : State), s.phase = .busy → 14 ≤ s.lenR → et ≠ 0x0800#16 →
    exec (.rejBadEthertype et) s =
      .next (outcomeState et s.vihl s.proto 0b001#3 0x2#4 0 0 s))

/-- Stage I1 (rule R104): no IPv4 byte is needed below 34 bytes, and a realisation that follows no
schedule reads none (log entry 3: a scheduled one may read early, rule R44). The row writes `eth_type`
at the edge that ends BUSY (log entry 11). -/
def Obligations.ShortIpv4FrameIsIpv4Truncated : Prop :=
  (∀ (len : Nat) (b12 b13 b14 b23 : Byte),
    decodeKey len (makeKey b12 b13 b14 b23) = .rejIpv4Truncated ↔
      14 ≤ len ∧ b12 ++ b13 = 0x0800#16 ∧ len < 34) ∧
  (∀ (len : Nat) (rd : Nat → Option Byte) (b12 b13 : Byte), len < 34 →
    rd 12 = some b12 → rd 13 = some b13 → nextRead len rd = none) ∧
  (∀ s : State, s.phase = .busy → s.lenR < 34 → s.sched = [] →
    s.readRequest ≠ some 14 ∧ s.readRequest ≠ some 23) ∧
  (∀ s : State, s.phase = .busy → 14 ≤ s.lenR → s.lenR < 34 →
    exec .rejIpv4Truncated s =
      .next (outcomeState 0x0800#16 s.vihl s.proto 0b001#3 0x3#4 0 0 s))

/-- Stage I2 (rule R105). The row writes `eth_type` and `vihl` at the edge that ends
BUSY (log entry 11) and clears the read port's fields (log entry 3). -/
def Obligations.OtherVersionIsBadVersion : Prop :=
  (∀ (len : Nat) (b12 b13 b14 b23 : Byte) (version ihl : BitVec 4),
    decodeKey len (makeKey b12 b13 b14 b23) = .rejBadVersion version ihl ↔
      34 ≤ len ∧ b12 ++ b13 = 0x0800#16 ∧ b14 = version ++ ihl ∧ version ≠ 4#4) ∧
  (∀ (len : Nat) (rd : Nat → Option Byte) (b12 b13 : Byte), 34 ≤ len →
    rd 12 = some b12 → rd 13 = some b13 → b12 ++ b13 = 0x0800#16 →
    (rd 14 = none → nextRead len rd = some 14) ∧
    (∀ version ihl : BitVec 4, rd 14 = some (version ++ ihl) → version ≠ 4#4 →
      nextRead len rd = none)) ∧
  (∀ (version ihl : BitVec 4) (s : State), s.phase = .busy → 34 ≤ s.lenR →
    version ≠ 4#4 →
    exec (.rejBadVersion version ihl) s =
      .next (outcomeState 0x0800#16 (version ++ ihl) s.proto 0b001#3 0x4#4 0 0 s))

/-- Stage I3 (rule R106). The row writes `eth_type` and `vihl` at the edge that ends
BUSY (log entry 11) and clears the read port's fields (log entry 3). -/
def Obligations.SmallIhlIsBadIhl : Prop :=
  (∀ (len : Nat) (b12 b13 b14 b23 : Byte) (ihl : BitVec 4),
    decodeKey len (makeKey b12 b13 b14 b23) = .rejBadIhl ihl ↔
      34 ≤ len ∧ b12 ++ b13 = 0x0800#16 ∧ b14 = 4#4 ++ ihl ∧ ihl.toNat < 5) ∧
  (∀ (ihl : BitVec 4) (s : State), s.phase = .busy → 34 ≤ s.lenR → ihl.toNat < 5 →
    exec (.rejBadIhl ihl) s =
      .next (outcomeState 0x0800#16 (4#4 ++ ihl) s.proto 0b001#3 0x5#4 0 0 s))

/-- Stage I4 (rule R107): "Only frames with options (IHL >= 6) can reject here". The row writes
`eth_type` and `vihl` at the edge that ends BUSY (log entry 11) and clears the read port's fields (log
entry 3). -/
def Obligations.CutOptionsAreOptionsTruncated : Prop :=
  (∀ (len : Nat) (b12 b13 b14 b23 : Byte) (ihl : BitVec 4),
    decodeKey len (makeKey b12 b13 b14 b23) = .rejIpv4OptionsTruncated ihl ↔
      34 ≤ len ∧ b12 ++ b13 = 0x0800#16 ∧ b14 = 4#4 ++ ihl ∧ 5 ≤ ihl.toNat ∧
        len < 14 + 4 * ihl.toNat) ∧
  (∀ (len : Nat) (k : BitVec 32) (ihl : BitVec 4),
    decodeKey len k = .rejIpv4OptionsTruncated ihl → 6 ≤ ihl.toNat) ∧
  (∀ (ihl : BitVec 4) (s : State), s.phase = .busy → 34 ≤ s.lenR → 5 ≤ ihl.toNat →
    s.lenR < 14 + 4 * ihl.toNat →
    exec (.rejIpv4OptionsTruncated ihl) s =
      .next (outcomeState 0x0800#16 (4#4 ++ ihl) s.proto 0b001#3 0x6#4 0 0 s))

/-- Stage U1 (rule R108): whatever the payload holds, and before the UDP header's length counts. The row
writes the three header registers at the edge that ends BUSY (log entry 11) and clears the read port's
fields (log entry 3). -/
def Obligations.OtherProtocolIsNotUdp : Prop :=
  (∀ (len : Nat) (b12 b13 b14 b23 p : Byte) (ihl : BitVec 4),
    decodeKey len (makeKey b12 b13 b14 b23) = .rejNotUdp ihl p ↔
      b12 ++ b13 = 0x0800#16 ∧ b14 = 4#4 ++ ihl ∧ 5 ≤ ihl.toNat ∧ 14 + 4 * ihl.toNat ≤ len ∧
        b23 = p ∧ p ≠ 17#8) ∧
  (∀ (len : Nat) (rd : Nat → Option Byte) (b12 b13 : Byte) (ihl : BitVec 4),
    rd 12 = some b12 → rd 13 = some b13 → b12 ++ b13 = 0x0800#16 →
    rd 14 = some (4#4 ++ ihl) → 5 ≤ ihl.toNat → 14 + 4 * ihl.toNat ≤ len →
    (rd 23 = none → nextRead len rd = some 23) ∧
    (∀ p, rd 23 = some p → nextRead len rd = none)) ∧
  (∀ (ihl : BitVec 4) (p : Byte) (s : State), s.phase = .busy → 5 ≤ ihl.toNat →
    14 + 4 * ihl.toNat ≤ s.lenR → p ≠ 17#8 →
    exec (.rejNotUdp ihl p) s =
      .next (outcomeState 0x0800#16 (4#4 ++ ihl) p 0b010#3 0x7#4 0 0 s))

/-- Stage P1 (rule R110). "No UDP byte is read": whatever is needed lies below `ip_end`, and so does the
whole read set. The row writes the three header registers at the edge that ends BUSY (log entry 11) and
clears the read port's fields (log entry 3). -/
def Obligations.CutUdpHeaderIsUdpHdrTruncated : Prop :=
  (∀ (len : Nat) (b12 b13 b14 b23 : Byte) (ihl : BitVec 4),
    decodeKey len (makeKey b12 b13 b14 b23) = .rejUdpHdrTruncated ihl ↔
      b12 ++ b13 = 0x0800#16 ∧ b14 = 4#4 ++ ihl ∧ 5 ≤ ihl.toNat ∧ b23 = 17#8 ∧
        14 + 4 * ihl.toNat ≤ len ∧ len < 14 + 4 * ihl.toNat + 8) ∧
  (∀ (len : Nat) (rd : Nat → Option Byte) (a : Nat) (ihl : BitVec 4), 5 ≤ ihl.toNat →
    nextRead len rd = some a → a < 14 + 4 * ihl.toNat) ∧
  (∀ (s : State) (a : Nat) (ihl : BitVec 4), 5 ≤ ihl.toNat → s.readRequest = some a →
    a < 14 + 4 * ihl.toNat) ∧
  (∀ (ihl : BitVec 4) (s : State), s.phase = .busy → 5 ≤ ihl.toNat →
    14 + 4 * ihl.toNat ≤ s.lenR → s.lenR < 14 + 4 * ihl.toNat + 8 →
    exec (.rejUdpHdrTruncated ihl) s =
      .next (outcomeState 0x0800#16 (4#4 ++ ihl) 17#8 0b011#3 0x8#4 0 0 s))

/-- Stage P2 (rule R111): "A zero-length payload is never a success". The row writes the three header
registers at the edge that ends BUSY (log entry 11) and clears the read port's fields (log entry 3). -/
def Obligations.NoPayloadIsEmptyPayload : Prop :=
  (∀ (len : Nat) (b12 b13 b14 b23 : Byte) (ihl : BitVec 4),
    decodeKey len (makeKey b12 b13 b14 b23) = .rejEmptyPayload ihl ↔
      b12 ++ b13 = 0x0800#16 ∧ b14 = 4#4 ++ ihl ∧ 5 ≤ ihl.toNat ∧ b23 = 17#8 ∧
        len = 14 + 4 * ihl.toNat + 8) ∧
  (∀ (ihl : BitVec 4) (s : State), s.phase = .busy → 5 ≤ ihl.toNat →
    s.lenR = 14 + 4 * ihl.toNat + 8 →
    exec (.rejEmptyPayload ihl) s =
      .next (outcomeState 0x0800#16 (4#4 ++ ihl) 17#8 0b011#3 0x9#4 0 0 s))

/-- Stages U2 and P3 (rules R109 and R112): the offset is `14 + 4 * IHL + 8` and the length what
remains of `len_r`, both exact when `len_r` fits its `LEN_W` bits, which the invariant says; on every
reject both are 0. The row writes the three header registers at the edge that ends BUSY (log entry 11),
clears the read port's fields (log entry 3) and sets the mark of the payload's lifetime (log entry 21). -/
def Obligations.AcceptReturnsTheDescriptor : Prop :=
  (∀ (len : Nat) (b12 b13 b14 b23 : Byte) (ihl : BitVec 4),
    decodeKey len (makeKey b12 b13 b14 b23) = .accept ihl ↔
      b12 ++ b13 = 0x0800#16 ∧ b14 = 4#4 ++ ihl ∧ 5 ≤ ihl.toNat ∧ b23 = 17#8 ∧
        14 + 4 * ihl.toNat + 8 < len) ∧
  (∀ (ihl : BitVec 4) (s : State), s.phase = .busy → 5 ≤ ihl.toNat → s.lenR < 2 ^ s.lenW →
    14 + 4 * ihl.toNat + 8 < s.lenR →
    exec (.accept ihl) s =
      .next (outcomeState 0x0800#16 (4#4 ++ ihl) 17#8 0b000#3 0x0#4 (14 + 4 * ihl.toNat + 8)
        (s.lenR - (14 + 4 * ihl.toNat + 8)) s)) ∧
  (∀ (i : Instr) (s t : State), i.isOutcome = true → (∀ ihl, i ≠ .accept ihl) →
    s.phase = .busy → exec i s = .next t → t.phase = .resp → t.resOffset = 0 ∧ t.resLength = 0)

/-- An outcome row acts only in the phase that evaluates the extraction; elsewhere the registers stay
as rules R141 and R143 keep them. That exec answers the same state there is the model's (log
entry 10). -/
def Obligations.OutcomeRowsActOnlyInBusy : Prop :=
  ∀ (i : Instr) (s : State), i.isOutcome = true → s.phase ≠ .busy → exec i s = .next s

/-- The frame of every instruction: each byte of FB reads as before; the log, the payloads handed
downstream, the coming inputs and moves, `LEN_W`, `RD_LAT` and the draws are as before; a request writes
no header and no result register, an outcome does not write `len_r`. -/
def Obligations.InstructionsLeaveTheRestAlone : Prop :=
  ∀ (i : Instr) (s t : State), exec i s = .next t →
    (∀ a : Nat, Memory.read t.fb a = Memory.read s.fb a) ∧ t.log = s.log ∧ t.loans = s.loans ∧
    t.inputs = s.inputs ∧ t.sched = s.sched ∧ t.lenW = s.lenW ∧ t.rdLat = s.rdLat ∧
    t.draws = s.draws ∧
    (i.isOutcome = false → t.ethType = s.ethType ∧ t.vihl = s.vihl ∧ t.proto = s.proto ∧
      t.response = s.response ∧ t.payloadIntact = s.payloadIntact) ∧
    (i.isOutcome = true → t.lenR = s.lenR)

/-- Rules R70, R71 and R173: whatever instruction runs in whatever state, if the result registers held
a pair of the table they hold one afterwards, never a code of the record decoder and never a reserved
one. -/
def Obligations.ReservedCodesAreNeverDriven : Prop :=
  ∀ (i : Instr) (s t : State), legalCodes s.resStatus s.resDetail = true → exec i s = .next t →
    legalCodes t.resStatus t.resDetail = true ∧ t.resStatus.toNat < 4 ∧ t.resDetail.toNat < 10

/-! ### The function `Extract` -/

/-- In BUSY the row that the key and the length select answers a next state in RESP whose response is
`Extract` of rule R101 on any memory with that key. `len_r` fits its `LEN_W` bits, which the invariant
says. -/
def Obligations.SelectedRowComputesExtract : Prop :=
  ∀ (s : State) (rd : Nat → Byte), s.phase = .busy → s.lenR < 2 ^ s.lenW →
    ∃ t, exec (decodeKey s.lenR (makeKey (rd 12) (rd 13) (rd 14) (rd 23))) s = .next t ∧
      t.phase = .resp ∧ t.response = (Extract s.lenR rd).bits

/-- Rule R113: the reads are in bounds and in the read set, no address twice, and two memories that
agree on the bytes read give the same reads, the same result and the same row. -/
def Obligations.ExtractDependsOnlyOnBytesRead : Prop :=
  ∀ (len : Nat) (rd : Nat → Byte),
    (∀ a ∈ extractReads len rd, a < len ∧ a ∈ [12, 13, 14, 23]) ∧
    (extractReads len rd).Nodup ∧
    ∀ rd' : Nat → Byte, (∀ a ∈ extractReads len rd, rd' a = rd a) →
      extractReads len rd' = extractReads len rd ∧ Extract len rd' = Extract len rd ∧
      decodeKey len (makeKey (rd' 12) (rd' 13) (rd' 14) (rd' 23)) =
        decodeKey len (makeKey (rd 12) (rd 13) (rd 14) (rd 23))

/-- The reads that the block still needs are those of rule R101 in its order: with the first `j` of
them answered, the next is the one at place `j`, and none is needed after the last (rules R44
and R118). -/
def Obligations.ReadsNeededFollowExtract : Prop :=
  ∀ (len : Nat) (rd : Nat → Byte) (j : Nat),
    nextRead len (fun a => if a ∈ (extractReads len rd).take j then some (rd a) else none) =
      (extractReads len rd)[j]?

/-- Rules R114 and R115: an accepted frame's offset is `22 + 4 * FB[14][3:0]`, 42 exactly when that
field is 5, and its payload is not empty and runs to the end of the buffer; every other result has a
zero descriptor. -/
def Obligations.DescriptorRunsToTheEndOfTheBuffer : Prop :=
  ∀ (len : Nat) (rd : Nat → Byte),
    ((Extract len rd).status = .ok →
      (Extract len rd).offset = 22 + 4 * ((rd 14).toNat % 16) ∧
      ((Extract len rd).offset = 42 ↔ (rd 14).toNat % 16 = 5) ∧
      (Extract len rd).offset ≤ 82 ∧ 1 ≤ (Extract len rd).length ∧
      (Extract len rd).offset + (Extract len rd).length = len) ∧
    ((Extract len rd).status ≠ .ok →
      (Extract len rd).offset = 0 ∧ (Extract len rd).length = 0)

/-- Rule R120, its four properties: truncation, non-UDP, IPv4 options, and the round trip of a frame
built from an Ethernet header, an IPv4 header with any options, a UDP header and a payload. -/
def Obligations.ExtractionProperties : Prop :=
  (∀ (rd : Nat → Byte) (ihl : BitVec 4), rd 12 = 0x08#8 → rd 13 = 0x00#8 →
    rd 14 = 4#4 ++ ihl → 5 ≤ ihl.toNat → rd 23 = 17#8 →
    Extract (22 + 4 * ihl.toNat) rd = .reject .emptyPayload) ∧
  (∀ (len : Nat) (rd : Nat → Byte) (ihl : BitVec 4), rd 12 = 0x08#8 → rd 13 = 0x00#8 →
    rd 14 = 4#4 ++ ihl → 5 ≤ ihl.toNat → 14 + 4 * ihl.toNat ≤ len → rd 23 ≠ 17#8 →
    Extract len rd = .reject .nonUdpProtocol) ∧
  (∀ (len : Nat) (rd : Nat → Byte), rd 12 = 0x08#8 → rd 13 = 0x00#8 → rd 14 = 0x46#8 →
    rd 23 = 17#8 → 46 < len → Extract len rd = .accept 46 (len - 46)) ∧
  (∀ (macs ip1 ip2 udp payload : List Byte) (ihl : BitVec 4), macs.length = 12 →
    ip1.length = 8 → ip2.length + 10 = 4 * ihl.toNat → 5 ≤ ihl.toNat → udp.length = 8 →
    payload ≠ [] →
    let frame := macs ++ [0x08#8, 0x00#8] ++ [4#4 ++ ihl] ++ ip1 ++ [17#8] ++ ip2 ++ udp ++ payload
    Extract frame.length (frameByte frame) = .accept (22 + 4 * ihl.toNat) payload.length ∧
      frame.drop (22 + 4 * ihl.toNat) = payload)

/-! ### One cycle -/

/-- The step runs the instruction that is decoded: in IDLE with a request, the one that the word on
`req_len` decodes to; at the end of BUSY, the row that the sampled key and `len_r` select. Around exec
the step takes the cycle's inputs and writes and samples the read port (`endCycle`, `busyCycle`,
`popMove`). A breach of the frame source's duty in the handshake's own cycle counts as one during the
transaction (`afterRun`): the model's choice, log entry 8. -/
def Obligations.StepRunsTheDecodedInstruction : Prop :=
  (∀ (s : State) (i : Instr), s.now.rst = false → s.phase = .idle → s.now.reqValid = true →
    decodeRequest (BitVec.ofNat s.lenW s.now.reqLen) = i →
    step s = afterRun s.now (exec i s.endCycle)) ∧
  (∀ (s : State) (i : Instr), s.now.rst = false → s.phase = .busy →
    s.busyCycle.plan = .finish →
    decodeKey s.lenR (sampledKey s.busyCycle.rdData) = i →
    step s = exec i s.busyCycle.popMove)

/-- A table word that decodes is the very next instruction of `withFetchWord`'s state, on a block whose
`LEN_W` holds the table's request word of 16 bits: its step is exec of the decoded instruction on that
state with the cycle's inputs taken (a request) or its cycle of BUSY gone through (an outcome), in the
phase and with the length that the instruction needs, and it completes there. The placing is the model's
(log entry 9). -/
def Obligations.FetchWordIsTheNextInstruction : Prop :=
  ∀ (s : State) (nbits w : Nat) (i : Instr), decodeTableWord nbits w = some i →
    (i.isOutcome = false → 16 ≤ s.lenW →
      (s.withFetchWord nbits w).endCycle.phase = .idle ∧
      ∃ t, step (s.withFetchWord nbits w) = .next t ∧
        exec i (s.withFetchWord nbits w).endCycle = .next t ∧ t.phase = .busy) ∧
    (i.isOutcome = true →
      (s.withFetchWord nbits w).busyCycle.popMove.phase = .busy ∧
      i.fitsLength (s.withFetchWord nbits w).busyCycle.popMove.lenR = true ∧
      ∃ t, step (s.withFetchWord nbits w) = .next t ∧
        exec i (s.withFetchWord nbits w).busyCycle.popMove = .next t ∧ t.phase = .resp)

/-- Rule R148, the output functions. -/
def Obligations.OutputsAreFunctionsOfPhaseAndReset : Prop :=
  ∀ s : State,
    (s.reqReady = true ↔ s.phase = .idle ∧ s.now.rst = false) ∧
    (s.rspValid = true ↔ s.phase = .resp ∧ s.now.rst = false) ∧
    s.rspStatus = s.resStatus ∧ s.rspDetail = s.resDetail ∧ s.rspOffset = s.resOffset ∧
    s.rspLength = s.resLength

/-- Rule R141: IDLE, its outputs, its request handshake, for a length that the `LEN_W` bits of `req_len`
carry, and a cycle with no request, in which no register of the block, no entry of the log and no byte of
FB that the frame source does not itself write changes. -/
def Obligations.IdleWaitsForARequest : Prop :=
  ∀ s : State, s.phase = .idle →
    (s.now.rst = false → s.reqReady = true) ∧ s.rspValid = false ∧ s.fbRdEn = false ∧
    (s.now.rst = false → s.now.reqValid = true →
      ∃ t, step s = .next t ∧ (s.now.reqLen < 2 ^ s.lenW → t.lenR = s.now.reqLen) ∧
        t.phase = .busy ∧ t.response = s.response ∧ t.log = s.log) ∧
    (s.now.rst = false → s.now.reqValid = false →
      ∃ t, step s = .next t ∧ sameRegisters s t ∧ t.log = s.log ∧
        ∀ a : Nat, (∀ w ∈ s.now.fbWrites, w.1 ≠ a) → Memory.read t.fb a = Memory.read s.fb a)

/-- Rule R143: RESP, its outputs, a consumer that stalls, in whose cycles no register of the block, no
entry of the log and no byte of FB that the frame source does not itself write changes, and the response
handshake. The header registers are unspecified after it
(rule R23), and nothing is said of them. -/
def Obligations.ResponseIsHeldUntilTaken : Prop :=
  ∀ s : State, s.phase = .resp →
    (s.now.rst = false → s.rspValid = true) ∧ s.reqReady = false ∧ s.fbRdEn = false ∧
    s.rspStatus = s.resStatus ∧ s.rspDetail = s.resDetail ∧ s.rspOffset = s.resOffset ∧
    s.rspLength = s.resLength ∧
    (s.now.rst = false → s.now.rspReady = false →
      ∃ t, step s = .next t ∧ sameRegisters s t ∧ t.log = s.log ∧
        ∀ a : Nat, (∀ w ∈ s.now.fbWrites, w.1 ≠ a) → Memory.read t.fb a = Memory.read s.fb a) ∧
    (s.now.rst = false → s.now.rspReady = true → legalCodes s.resStatus s.resDetail = true →
      ∃ t, step s = .next t ∧ t.phase = .idle ∧ t.log = s.log ++ [s.response] ∧
        t.response = s.response ∧ t.lenR = s.lenR ∧
        ∀ a : Nat, (∀ w ∈ s.now.fbWrites, w.1 ≠ a) → Memory.read t.fb a = Memory.read s.fb a)

/-- A cycle of IDLE with no request and a cycle of RESP with no ready consumer, the whole state: the
inputs are used up, FB takes the frame source's writes, and they count against the payloads whose frame
they hit (log entry 21). -/
def Obligations.QuietEdgesKeepTheBlock : Prop :=
  ∀ s : State, s.now.rst = false →
    (s.phase = .idle ∧ s.now.reqValid = false ∨ s.phase = .resp ∧ s.now.rspReady = false) →
    step s = .next { s with
      inputs := s.inputs.tail, fb := Memory.writes s.fb s.incoming
      payloadIntact := s.payloadIntact &&
        !s.incoming.any (fun w => decide (w.1 < s.resOffset + s.resLength))
      loans := s.loans.map (Loan.note s.incoming) }

/-- Item I16: a response handshake on a pair of codes that no extraction produces is a fault of the
realisation. -/
def Obligations.ReservedResponseIsAFault : Prop :=
  ∀ s : State, s.phase = .resp → s.now.rst = false → s.now.rspReady = true →
    legalCodes s.resStatus s.resDetail = false →
    step s = .fault (.reservedResponse s.resStatus s.resDetail)

/-- Rule R230: in every state, whatever the other inputs, reset wins. `len_r` and the header registers
become unspecified, and nothing is said of them. That the log is kept (log entry 18), the parameters and
the schedule too (log entries 1, 2 and 3), the read port's fields are cleared (log entry 3), and the
payloads on loan are kept with the writes of the cycle noted (log entry 21), is the model's. -/
def Obligations.ResetWinsInEveryState : Prop :=
  ∀ s : State, s.now.rst = true →
    s.reqReady = false ∧ s.rspValid = false ∧ s.fbRdEn = false ∧
    s.requestHandshake = false ∧ s.responseHandshake = false ∧
    ∃ t, step s = .next t ∧ t.phase = .idle ∧ t.resStatus = 0b000#3 ∧ t.resDetail = 0x0#4 ∧
      t.resOffset = 0 ∧ t.resLength = 0 ∧ t.rdPending = [] ∧ t.rdData = [] ∧
      t.disturbed = false ∧ t.log = s.log ∧ t.lenW = s.lenW ∧ t.rdLat = s.rdLat ∧
      t.sched = s.sched ∧ t.inputs = s.inputs.tail ∧
      t.loans = s.loans.map (Loan.note s.incoming) ∧
      ∀ a : Nat, Memory.read t.fb a = Memory.read (Memory.writes s.fb s.incoming) a

/-- Rule R233: two cycles of reset leave what one cycle of reset and a quiet cycle leave, but for the
registers that reset leaves unspecified and the count of draws. -/
def Obligations.LongerResetHasTheSameEffect : Prop :=
  ∀ (s : State) (c c' : PortIn) (cs : List PortIn), c.rst = true → c'.rst = true →
    c'.fbWrites = [] →
    ∃ t t', Sys2Proof.core.run 2 { s with inputs := c :: c' :: cs } = .next t ∧
      Sys2Proof.core.run 2 { s with inputs := c :: PortIn.quiet :: cs } = .next t' ∧
      { t with lenR := t'.lenR, ethType := t'.ethType, vihl := t'.vihl, proto := t'.proto,
               draws := t'.draws } = t'

/-- Rule R145: `req_valid` and `req_len` matter only in IDLE, `req_len` only with `req_valid = 1`, and
`rsp_ready` only in RESP. -/
def Obligations.InputsMatterOnlyWhereSampled : Prop :=
  ∀ (s : State) (c c' : PortIn) (cs : List PortIn), c.rst = c'.rst → c.fbWrites = c'.fbWrites →
    c.badAnswer = c'.badAnswer →
    (s.phase = .idle → c.reqValid = c'.reqValid ∧ (c.reqValid = true → c.reqLen = c'.reqLen)) →
    (s.phase = .resp → c.rspReady = c'.rspReady) →
    step { s with inputs := c :: cs } = step { s with inputs := c' :: cs }

/-- Rule R149: the cycle of a response handshake takes no request, and in the next cycle one can be
taken. -/
def Obligations.NextRequestComesAfterTheResponse : Prop :=
  ∀ (s t : State), s.responseHandshake = true → step s = .next t →
    s.reqReady = false ∧ s.requestHandshake = false ∧ t.lenR = s.lenR ∧ t.phase = .idle ∧
    (t.now.rst = false → t.reqReady = true) ∧
    (t.now.rst = false → t.now.reqValid = true →
      ∃ u, step t = .next u ∧ u.phase = .busy ∧ u.lenR = t.now.reqLen % 2 ^ t.lenW)

/-- The output log grows by the response on the port at a response handshake, and at no other edge. -/
def Obligations.LogGrowsOnlyAtResponseHandshakes : Prop :=
  ∀ s t : State, step s = .next t →
    t.log = if s.responseHandshake = true then s.log ++ [s.response] else s.log

/-- Rule R212: every rejected frame leaves its status and detail among the diagnostics, and nothing
else does. -/
def Obligations.EveryRejectionLeavesItsDiagnostic : Prop :=
  ∀ s t : State, step s = .next t →
    diagnostics t.log =
      if s.responseHandshake = true ∧ s.resStatus ≠ Status.ok.code
      then diagnostics s.log ++ [(s.resStatus, s.resDetail)] else diagnostics s.log

/-- Rules R40 and R41: over a step FB changes by the frame source's writes of that cycle and by nothing
else, and only at its `2^LEN_W` addresses; a write elsewhere is none (log entry 1). -/
def Obligations.OnlyTheFrameSourceWritesFB : Prop :=
  (∀ s t : State, step s = .next t → t.fb = Memory.writes s.fb s.incoming) ∧
  (∀ (s : State) (w : Nat × Byte), w ∈ s.incoming ↔ w ∈ s.now.fbWrites ∧ w.1 < 2 ^ s.lenW) ∧
  (∀ (s t : State) (a : Nat), step s = .next t → (∀ w ∈ s.now.fbWrites, w.1 ≠ a) →
    Memory.read t.fb a = Memory.read s.fb a)

/-- Rule R10: `LEN_W` and `RD_LAT` are parameters. No step writes either, whatever they are (log entries
1 and 2). -/
def Obligations.ParametersNeverChange : Prop :=
  ∀ (k : Nat) (s t : State), Sys2Proof.core.run k s = .next t → t.lenW = s.lenW ∧ t.rdLat = s.rdLat

/-! ### The read port -/

/-- Rule R43: a read is never at or past `len_r`, and so is none of rule R101's. With it rules R44 and
R147: a read is issued only in BUSY, only in the read set, and never a second time in a transaction. -/
def Obligations.ReadsAreInBoundsAndOnce : Prop :=
  (∀ (s : State) (a : Nat), s.readRequest = some a →
    s.phase = .busy ∧ s.now.rst = false ∧ a < s.lenR ∧
    (a = 12 ∨ a = 13 ∨ a = 14 ∨ a = 23) ∧ a ∉ s.issued) ∧
  (∀ (s : State) (other : Nat), s.fbRdEn = true → s.fbRdAddr other < s.lenR) ∧
  (∀ (len : Nat) (rd : Nat → Byte), ∀ a ∈ extractReads len rd, a < len)

/-- Rule R42: a read's data comes exactly `RD_LAT` cycles after its request. A request of this cycle is
due in `RD_LAT` cycles, an outstanding read comes one cycle nearer in each cycle of BUSY, and one that
is due in the next cycle is on `fb_rd_data` in that cycle, the last cycle of BUSY too, and is sampled
there, with the byte of FB while the frame source leaves the frame alone. Rule R147: BUSY ends by a
finish only, and then no read is outstanding. -/
def Obligations.ReadDataComesAfterRdLat : Prop :=
  ∀ s t : State, Invariant s → s.phase = .busy → s.now.rst = false → step s = .next t →
    (∀ a, s.readRequest = some a → (a, s.rdLat) ∈ t.rdPending) ∧
    (∀ a d, (a, d + 1) ∈ s.rdPending → 1 ≤ d → (a, d) ∈ t.rdPending) ∧
    (∀ a, (a, 1) ∈ s.rdPending → s.disturbed = false →
      breaksDuty s.lenR s.now = false →
      (∀ stray, (a, memRead s a) ∈ s.fbRdData stray) ∧ (a, memRead s a) ∈ s.busyCycle.rdData ∧
      (t.phase = .busy → (a, memRead s a) ∈ t.rdData)) ∧
    (t.phase ≠ .busy ↔ s.busyCycle.plan = .finish) ∧
    (s.busyCycle.plan = .finish → s.busyCycle.rdPending = [])

/-- A transaction issues at most four reads (rule R118). -/
def Obligations.AtMostFourReads : Prop :=
  ∀ s : State, Invariant s → s.issued.length ≤ 4

/-- Rules R51 and R152: after a write to the frame or a bad answer in BUSY every byte that the transaction
has read is a free value, those answered before it too (log entry 8), and the same reads have been
issued. -/
def Obligations.BreachMakesReadsFree : Prop :=
  ∀ s : State, s.phase = .busy → breaksDuty s.lenR s.now = true →
    s.busyCycle.disturbed = true ∧
    (∀ p ∈ s.busyCycle.rdData, ∃ draw, p.2 = Config.freeRead draw p.1) ∧
    ∀ a, a ∈ s.busyCycle.issued ↔ a ∈ s.issued

/-! ### Invariants and progress -/

/-- The state after reset meets the invariant. -/
def Obligations.InvariantAtReset : Prop := Invariant State.reset

/-- Every step keeps the invariant: FB stays canonical and within its `2^LEN_W` addresses, every register
within its `LEN_W` bits, the result registers hold a legal pair with a descriptor that fits the frame,
the read port reads within the frame and what it has answered is FB's, it is at rest outside BUSY, and
every payload handed downstream lies within FB, past the headers, and is not empty. -/
def Obligations.InvariantKeptByEveryStep : Prop :=
  ∀ s t : State, Invariant s → step s = .next t → Invariant t

/-- No input, no frame and no sequence of handshakes stops the block (rules R145 and R214): from the
invariant every step answers a next state. -/
def Obligations.NoStateStopsTheBlock : Prop :=
  ∀ s : State, Invariant s → ∃ t, step s = .next t

/-- A cycle of BUSY without reset comes nearer to RESP or reaches it, and keeps the length; one that
stays in BUSY leaves the four result registers as they were (rule R24). The bound counts the schedule's
moves, a finite list (log entry 3). -/
def Obligations.BusyComesNearerToItsEnd : Prop :=
  ∀ s : State, Invariant s → s.phase = .busy → s.now.rst = false →
    ∃ t, step s = .next t ∧ t.lenR = s.lenR ∧
      (t.phase = .resp ∨
        (t.phase = .busy ∧ busyBound t < busyBound s ∧ t.response = s.response))

/-- Every transaction is answered, with `Extract` of its length and its frame, for every schedule of
the realisation, every `LEN_W`, every `RD_LAT` and every content of FB: "Between the two there is no
other request handshake" (rule R144), the latency is at least 2 and bounded (rule R146), the log is
untouched until the response is taken, and the payload's bytes are FB's. The bound counts the schedule's
moves, a finite list (log entry 3). -/
def Obligations.EveryTransactionAnswersExtract : Prop :=
  ∀ (n : Nat) (s : State), opensTransaction n s →
    ∃ k t, answersAfter k s t ∧ 2 ≤ k ∧ k ≤ s.sched.length + 4 * (s.rdLat + 1) + 2 ∧
      t.lenR = n ∧ t.log = s.log ∧ t.payloadIntact = true ∧
      t.response = (Extract n (Memory.read s.fb)).bits

/-- Rules R30, R42 and R113: two transactions of the same length whose frames agree on the key bytes
within it have the same response, whatever the registers held before, whatever else FB holds, and
whatever the parameters and the two schedules are. -/
def Obligations.ResponseDependsOnlyOnLengthAndKey : Prop :=
  ∀ (n : Nat) (s s' t t' : State) (k k' : Nat), opensTransaction n s → opensTransaction n s' →
    (∀ a ∈ [12, 13, 14, 23], a < n → Memory.read s.fb a = Memory.read s'.fb a) →
    answersAfter k s t → answersAfter k' s' t' → t.response = t'.response

/-- Rule R51: though the frame source breaks its duty in any cycle of BUSY, the transaction ends, and its
response is one that fits a frame of `len_r` bytes. The bound counts the schedule's moves, a finite list
(log entry 3). -/
def Obligations.BreachCannotBreakTheResponse : Prop :=
  ∀ s : State, Invariant s → s.phase = .busy → (∀ c ∈ s.inputs, c.rst = false) →
    ∃ k t, k ≤ busyBound s ∧ Sys2Proof.core.run k s = .next t ∧ t.phase = .resp ∧
      t.lenR = s.lenR ∧ t.log = s.log ∧ responseFits s.lenR t.vihl t.response

/-- Rule R231: a reset abandons the transaction in any phase, with no response for it; the frame offered
again is a new transaction with the result of its own frame. -/
def Obligations.ResetAbandonsTheTransaction : Prop :=
  ∀ (n : Nat) (s : State) (c c' : PortIn) (cs : List PortIn), Invariant s →
    n < 2 ^ s.lenW → s.inputs = c :: c' :: cs → c.rst = true → c'.reqValid = true →
    c'.reqLen = n → quietFor n (c' :: cs) →
    ∃ u k t, step s = .next u ∧ u.phase = .idle ∧ u.rdPending = [] ∧ u.log = s.log ∧
      answersAfter k u t ∧ t.log = s.log ∧
      t.response = (Extract n (Memory.read u.fb)).bits

/-- Rule R144: over any number of cycles from IDLE with no reset in them, each request handshake has
its response handshake but for the one in flight, and the log gains one tuple for each. -/
def Obligations.HandshakesArePaired : Prop :=
  ∀ (k : Nat) (s t : State), s.phase = .idle → (∀ c ∈ s.inputs, c.rst = false) →
    Sys2Proof.core.run k s = .next t →
    countCycles State.requestHandshake k s =
      countCycles State.responseHandshake k s + (if t.phase = .idle then 0 else 1) ∧
    t.log.length = s.log.length + countCycles State.responseHandshake k s

/-- Rule R240: a run from IDLE in which no reset abandons a transaction is finished exactly when it ends
in IDLE, and then its output is one tuple for each of its requests, after what the log held before. A
request counts when its handshake is in the run (log entry 22). -/
def Obligations.RunIsFinishedWhenItEndsInIdle : Prop :=
  ∀ (k : Nat) (s t : State), s.phase = .idle → Sys2Proof.core.run k s = .next t →
    countCycles State.abandons k s = 0 →
    (finishedAfter k s ↔ t.phase = .idle) ∧
    ∃ output, t.log = s.log ++ output ∧
      (t.phase = .idle → output.length = countCycles State.requestHandshake k s)

/-! ### The boundary -/

/-- Rules R170, R171 and R237: a payload goes downstream only while `rsp_valid = 1`, never in IDLE, in BUSY
or in a cycle with `rst = 1`, and there exactly for the status OK. It starts at
`22 + 4 * IHL`, IHL being that of the byte that the extraction has read, so none of it is a header byte,
is not empty, and runs to the end of the frame; while the frame source leaves the frame alone it is the
bytes of FB there (rules R172 and R235; log entry 21). -/
def Obligations.PayloadGoesDownstreamOnlyOnOk : Prop :=
  (∀ (s : State) (draw : Nat),
    s.phase ≠ .resp ∨ s.now.rst = true ∨ s.rspStatus ≠ 0b000#3 → s.handoff draw = none) ∧
  (∀ (s : State) (draw : Nat), Invariant s → s.phase = .resp → s.now.rst = false →
    s.rspStatus = 0b000#3 → s.rspValid = true ∧ ∃ payload, s.handoff draw = some payload ∧
      payload.length = s.rspLength ∧ 1 ≤ payload.length ∧
      5 ≤ ihlOf s.vihl ∧ s.rspOffset = 22 + 4 * ihlOf s.vihl ∧
      s.rspOffset + payload.length = s.lenR ∧
      (s.payloadIntact = true → ∀ j, j < payload.length →
        payload[j]? = some (Memory.read s.fb (s.rspOffset + j))))

/-- Rule R172: the payload "borrows RawFrame's lifetime". A response handshake with the status OK hands
its payload downstream. Until the frame source writes its frame every later read of it gives the same
bytes, those of FB; from the first such write on each byte is a free draw (rules R51 and R235), and no
later step mends that. Where the lifetime starts and ends is the model's reading (log entry 21). -/
def Obligations.PayloadLastsUntilTheFrameIsOverwritten : Prop :=
  (∀ s t : State, step s = .next t →
    t.loans = (s.loans ++
      (if s.responseHandshake = true ∧ s.resStatus = 0b000#3
       then [⟨s.resOffset, s.resLength, s.payloadIntact⟩] else [] : List Loan)).map
        (Loan.note s.incoming)) ∧
  (∀ s t : State, step s = .next t →
    (s.phase = .busy → t.phase = .resp → t.payloadIntact = !s.busyCycle.disturbed) ∧
    (s.phase = .resp → (t.payloadIntact = true ↔ s.payloadIntact = true ∧
      ∀ w ∈ s.incoming, s.resOffset + s.resLength ≤ w.1))) ∧
  (∀ (s t : State) (l : Loan) (draw draw' : Nat), step s = .next t → l.intact = true →
    (∀ w ∈ s.incoming, l.offset + l.length ≤ w.1) →
    (Loan.note s.incoming l).intact = true ∧
    (Loan.note s.incoming l).payload draw t.fb = l.payload draw' s.fb ∧
    ∀ j, j < l.length → (l.payload draw' s.fb)[j]? = some (Memory.read s.fb (l.offset + j))) ∧
  (∀ (s : State) (l : Loan) (draw j : Nat) (fb : Memory),
    (l.intact = false ∨ ∃ w ∈ s.incoming, w.1 < l.offset + l.length) → j < l.length →
    (Loan.note s.incoming l).intact = false ∧
    ((Loan.note s.incoming l).payload draw fb)[j]? =
      some (Config.freePayload (draw + j) (l.offset + j)))

/-- Rules R75 and R150: the pseudo-instruction `EXTRACT <bytes>`, run from IDLE, loads the frame, has it
answered, and appends `Extract` of those bytes and their number to the log. `LOAD` takes one cycle (log
entry 20). -/
def Obligations.ExtractScriptAppendsTheResult : Prop :=
  ∀ (s : State) (bytes : List Byte), Invariant s → s.phase = .idle → s.inputs = [] →
    bytes.length < 2 ^ s.lenW →
    ∃ t, runScript (extractScript bytes) s = .next t ∧ t.phase = .idle ∧
      t.log = s.log ++ [(Extract bytes.length (frameByte bytes)).bits] ∧
      (∀ a, a < bytes.length → Memory.read t.fb a = frameByte bytes a) ∧
      (∀ a, bytes.length ≤ a → Memory.read t.fb a = Memory.read s.fb a)
end

