-- ==== Sys2Proof/Laws/Decode.lean ====
section
/-! SUPPORT. What the classification table does: match and mask of a row as equations of the key's
fields, the table as a chain of conditions, and the fields of a key made of four bytes. -/

namespace Sys2Proof

/-- A bit of `k` in the field of `w` bits from bit `lo` on, from the field's value. -/
theorem getLsbD_of_field {k : BitVec 32} {lo w : Nat} {v : BitVec w}
    (h : k.extractLsb' lo w = v) {i : Nat} (h1 : lo ≤ i) (h2 : i < lo + w) :
    k.getLsbD i = v.getLsbD (i - lo) := by
  have h3 := congrArg (fun x => BitVec.getLsbD x (i - lo)) h
  simp only [BitVec.getLsbD_extractLsb'] at h3
  rw [show lo + (i - lo) = i by omega] at h3
  simpa [show i - lo < w by omega] using h3

/-- A field of a masked key, where the mask covers it. -/
theorem field_of_masked {k mask m : BitVec 32} {lo w : Nat} (h : k &&& mask = m)
    (hm : mask.extractLsb' lo w = BitVec.allOnes w) :
    k.extractLsb' lo w = m.extractLsb' lo w := by
  have h1 := congrArg (BitVec.extractLsb' lo w) h
  rwa [BitVec.extractLsb'_and, hm, BitVec.and_allOnes] at h1

/-- Rows 3 and 4: `(K & 0xFFFF0000) == 0x08000000`. -/
theorem masked_ethType (k : BitVec 32) :
    (k &&& 0xFFFF0000#32 = 0x08000000#32) ↔ keyEthType k = 0x0800#16 := by
  constructor
  · intro h
    exact (field_of_masked (lo := 16) (w := 16) h (by decide)).trans (by decide)
  · intro h
    apply BitVec.eq_of_getLsbD_eq
    intro i hi
    rw [BitVec.getLsbD_and]
    by_cases h16 : 16 ≤ i
    · rw [getLsbD_of_field h h16 (by omega)]
      clear h
      interval_cases i <;> decide
    · have hz : BitVec.getLsbD 0xFFFF0000#32 i = false := by interval_cases i <;> decide
      rw [hz, Bool.and_false]
      interval_cases i <;> decide

/-- Rows 5 to 7: `(K & 0xFFFFF000) == 0x08004000`. -/
theorem masked_version (k : BitVec 32) :
    (k &&& 0xFFFFF000#32 = 0x08004000#32) ↔
      keyEthType k = 0x0800#16 ∧ keyVersion k = 4#4 := by
  constructor
  · intro h
    exact ⟨(field_of_masked (lo := 16) (w := 16) h (by decide)).trans (by decide),
      (field_of_masked (lo := 12) (w := 4) h (by decide)).trans (by decide)⟩
  · rintro ⟨he, hv⟩
    apply BitVec.eq_of_getLsbD_eq
    intro i hi
    rw [BitVec.getLsbD_and]
    by_cases h16 : 16 ≤ i
    · rw [getLsbD_of_field he h16 (by omega)]
      clear he hv
      interval_cases i <;> decide
    · by_cases h12 : 12 ≤ i
      · rw [getLsbD_of_field hv h12 (by omega)]
        clear he hv
        interval_cases i <;> decide
      · have hz : BitVec.getLsbD 0xFFFFF000#32 i = false := by interval_cases i <;> decide
        rw [hz, Bool.and_false]
        interval_cases i <;> decide

/-- Rows 8 to 10: `(K & 0xFFFFF0FF) == 0x08004011`. -/
theorem masked_proto (k : BitVec 32) :
    (k &&& 0xFFFFF0FF#32 = 0x08004011#32) ↔
      keyEthType k = 0x0800#16 ∧ keyVersion k = 4#4 ∧ keyProto k = 17#8 := by
  constructor
  · intro h
    exact ⟨(field_of_masked (lo := 16) (w := 16) h (by decide)).trans (by decide),
      (field_of_masked (lo := 12) (w := 4) h (by decide)).trans (by decide),
      (field_of_masked (lo := 0) (w := 8) h (by decide)).trans (by decide)⟩
  · rintro ⟨he, hv, hp⟩
    apply BitVec.eq_of_getLsbD_eq
    intro i hi
    rw [BitVec.getLsbD_and]
    by_cases h16 : 16 ≤ i
    · rw [getLsbD_of_field he h16 (by omega)]
      clear he hv hp
      interval_cases i <;> decide
    · by_cases h12 : 12 ≤ i
      · rw [getLsbD_of_field hv h12 (by omega)]
        clear he hv hp
        interval_cases i <;> decide
      · by_cases h8 : 8 ≤ i
        · have hz : BitVec.getLsbD 0xFFFFF0FF#32 i = false := by interval_cases i <;> decide
          rw [hz, Bool.and_false]
          interval_cases i <;> decide
        · rw [getLsbD_of_field hp (by omega : 0 ≤ i) (by omega)]
          clear he hv hp
          interval_cases i <;> decide

/-- The table as one chain of conditions on the key's fields and the length: the priority order of its
rows leaves each row only what the rows above it do not catch. -/
theorem decodeKey_chain (len : Nat) (k : BitVec 32) :
    decodeKey len k =
      if len < 14 then .rejEthTruncated
      else if keyEthType k ≠ 0x0800#16 then .rejBadEthertype (keyEthType k)
      else if len < 34 then .rejIpv4Truncated
      else if keyVersion k ≠ 4#4 then .rejBadVersion (keyVersion k) (keyIhl k)
      else if (keyIhl k).toNat < 5 then .rejBadIhl (keyIhl k)
      else if len < 14 + 4 * (keyIhl k).toNat then .rejIpv4OptionsTruncated (keyIhl k)
      else if keyProto k ≠ 17#8 then .rejNotUdp (keyIhl k) (keyProto k)
      else if len < 22 + 4 * (keyIhl k).toNat then .rejUdpHdrTruncated (keyIhl k)
      else if len = 22 + 4 * (keyIhl k).toNat then .rejEmptyPayload (keyIhl k)
      else .accept (keyIhl k) := by
  have e1 : (k &&& 0#32 = 0#32) = True := by simp
  simp only [decodeKey, rejectRows, List.find?, Row.holds, rowEthTruncated, rowBadEthertype,
    rowIpv4Truncated, rowBadVersion, rowBadIhl, rowIpv4OptionsTruncated, rowNotUdp,
    rowUdpHdrTruncated, rowEmptyPayload, rowAccept, ethHdrLen, ipv4MinHdrLen, minIhl, ipEnd,
    payloadOffset, ihlUnit, udpHdrLen, etherTypeIpv4, versionIpv4, protoUdp, Nat.reduceAdd]
  by_cases h1 : len < 14
  · simp [h1]
  by_cases h2 : keyEthType k = 0x0800#16
  swap
  · have hne : (keyEthType k != 2048#16) = true := by simpa using h2
    simp [h1, h2, hne, Nat.le_of_not_lt h1]
  have m1 := (masked_ethType k).2 h2
  by_cases h3 : len < 34
  · simp [h1, h2, h3, m1]
  by_cases h4 : keyVersion k = 4#4
  swap
  · have hne : (keyVersion k != 4#4) = true := by simpa using h4
    simp [h1, h2, h3, h4, hne, m1, Nat.le_of_not_lt h3]
  have m2 := (masked_version k).2 ⟨h2, h4⟩
  by_cases h5 : (keyIhl k).toNat < 5
  · simp [h1, h2, h3, h4, h5, m1, m2, Nat.le_of_not_lt h3]
  by_cases h6 : len < 14 + 4 * (keyIhl k).toNat
  · have h6' : 6 ≤ (keyIhl k).toNat := by omega
    simp [h1, h2, h3, h4, h5, h6, m1, m2, h6']
  by_cases h7 : keyProto k = 17#8
  swap
  · have hne : (keyProto k != 17#8) = true := by simpa using h7
    simp [h1, h2, h3, h4, h5, h6, h7, hne, m1, m2, Nat.le_of_not_lt h5, Nat.le_of_not_lt h6]
  have m3 := (masked_proto k).2 ⟨h2, h4, h7⟩
  by_cases h8 : len < 22 + 4 * (keyIhl k).toNat
  · have h8' : len < 14 + 4 * (keyIhl k).toNat + 8 := by omega
    simp [h1, h2, h3, h4, h5, h6, h7, h8, h8', m1, m2, m3, Nat.le_of_not_lt h5,
      Nat.le_of_not_lt h6]
  have h8' : ¬ len < 14 + 4 * (keyIhl k).toNat + 8 := by omega
  by_cases h9 : len = 22 + 4 * (keyIhl k).toNat
  · have h9' : len = 14 + 4 * (keyIhl k).toNat + 8 := by omega
    simp [h1, h2, h3, h4, h5, h6, h7, h8, h8', eq_true h9, eq_true h9', m1, m2, m3,
      Nat.le_of_not_lt h5, Nat.le_of_not_lt h6]
  · have h9' : ¬ len = 14 + 4 * (keyIhl k).toNat + 8 := by omega
    simp [h1, h2, h3, h4, h5, h6, h7, h8, h8', h9, h9', m1, m2, m3]

/-- The fields of a key made of four bytes (rules R45, R64, R65 and R67). -/
@[simp] theorem keyEthType_makeKey (b12 b13 b14 b23 : Byte) :
    keyEthType (makeKey b12 b13 b14 b23) = b12 ++ b13 := by
  apply BitVec.eq_of_getLsbD_eq
  intro i hi
  simp only [keyEthType, makeKey, BitVec.getLsbD_extractLsb', BitVec.getLsbD_append]
  simp [hi, show ¬ 16 + i < 8 by omega, show ¬ 16 + i - 8 < 8 by omega,
    show 16 + i - 8 - 8 = i by omega]

@[simp] theorem keyVersion_makeKey (b12 b13 b14 b23 : Byte) :
    keyVersion (makeKey b12 b13 b14 b23) = b14.extractLsb' 4 4 := by
  apply BitVec.eq_of_getLsbD_eq
  intro i hi
  simp only [keyVersion, makeKey, BitVec.getLsbD_extractLsb', BitVec.getLsbD_append]
  simp only [hi, decide_true, Bool.true_and, show ¬ 12 + i < 8 by omega, if_false,
    show 12 + i - 8 = 4 + i by omega, show 4 + i < 8 by omega, if_true]

@[simp] theorem keyIhl_makeKey (b12 b13 b14 b23 : Byte) :
    keyIhl (makeKey b12 b13 b14 b23) = b14.extractLsb' 0 4 := by
  apply BitVec.eq_of_getLsbD_eq
  intro i hi
  simp only [keyIhl, makeKey, BitVec.getLsbD_extractLsb', BitVec.getLsbD_append]
  simp [hi, show i < 8 by omega]

@[simp] theorem keyProto_makeKey (b12 b13 b14 b23 : Byte) :
    keyProto (makeKey b12 b13 b14 b23) = b23 := by
  apply BitVec.eq_of_getLsbD_eq
  intro i hi
  simp only [keyProto, makeKey, BitVec.getLsbD_extractLsb', BitVec.getLsbD_append]
  simp [hi]

/-- The byte of version and IHL, taken apart (rule R64). -/
theorem version_ihl_of_append (version ihl : BitVec 4) :
    (version ++ ihl).extractLsb' 4 4 = version ∧ (version ++ ihl).extractLsb' 0 4 = ihl := by
  constructor <;> apply BitVec.eq_of_getLsbD_eq <;> intro i hi <;>
    simp only [BitVec.getLsbD_extractLsb', BitVec.getLsbD_append] <;> simp [hi]

/-- A number below 65536 is its pair of bytes. -/
theorem pairBytes_eq (n : Nat) (h : n < 65536) :
    ∃ hi lo, pairBytes n = [hi, lo] ∧ pair hi lo = n := by
  refine ⟨_, _, rfl, ?_⟩
  simp only [pair, BitVec.toNat_ofNat]
  omega

end Sys2Proof
end

