-- ==== Sys2Proof/Laws/State.lean ====
section
/-! SUPPORT. One lemma for each field of the state under each named update: what the update leaves there. -/

namespace Sys2Proof.Machine

/-! ### `State.accepted` -/

@[simp] theorem State.accepted_phase (n : Nat) (s : State) : (s.accepted n).phase = .busy := rfl
@[simp] theorem State.accepted_lenR (n : Nat) (s : State) : (s.accepted n).lenR = lowBits s.lenW n := rfl
@[simp] theorem State.accepted_ethType (n : Nat) (s : State) : (s.accepted n).ethType = s.ethType := rfl
@[simp] theorem State.accepted_vihl (n : Nat) (s : State) : (s.accepted n).vihl = s.vihl := rfl
@[simp] theorem State.accepted_proto (n : Nat) (s : State) : (s.accepted n).proto = s.proto := rfl
@[simp] theorem State.accepted_resStatus (n : Nat) (s : State) : (s.accepted n).resStatus = s.resStatus := rfl
@[simp] theorem State.accepted_resDetail (n : Nat) (s : State) : (s.accepted n).resDetail = s.resDetail := rfl
@[simp] theorem State.accepted_resOffset (n : Nat) (s : State) : (s.accepted n).resOffset = s.resOffset := rfl
@[simp] theorem State.accepted_resLength (n : Nat) (s : State) : (s.accepted n).resLength = s.resLength := rfl
@[simp] theorem State.accepted_fb (n : Nat) (s : State) : (s.accepted n).fb = s.fb := rfl
@[simp] theorem State.accepted_rdPending (n : Nat) (s : State) : (s.accepted n).rdPending = [] := rfl
@[simp] theorem State.accepted_rdData (n : Nat) (s : State) : (s.accepted n).rdData = [] := rfl
@[simp] theorem State.accepted_disturbed (n : Nat) (s : State) : (s.accepted n).disturbed = false := rfl
@[simp] theorem State.accepted_inputs (n : Nat) (s : State) : (s.accepted n).inputs = s.inputs := rfl
@[simp] theorem State.accepted_sched (n : Nat) (s : State) : (s.accepted n).sched = s.sched := rfl
@[simp] theorem State.accepted_log (n : Nat) (s : State) : (s.accepted n).log = s.log := rfl
@[simp] theorem State.accepted_payloadIntact (n : Nat) (s : State) : (s.accepted n).payloadIntact = s.payloadIntact := rfl
@[simp] theorem State.accepted_loans (n : Nat) (s : State) : (s.accepted n).loans = s.loans := rfl
@[simp] theorem State.accepted_lenW (n : Nat) (s : State) : (s.accepted n).lenW = s.lenW := rfl
@[simp] theorem State.accepted_rdLat (n : Nat) (s : State) : (s.accepted n).rdLat = s.rdLat := rfl
@[simp] theorem State.accepted_draws (n : Nat) (s : State) : (s.accepted n).draws = s.draws := rfl

/-! ### `State.latchEthType` -/

@[simp] theorem State.latchEthType_phase (et : BitVec 16) (s : State) : (s.latchEthType et).phase = s.phase := rfl
@[simp] theorem State.latchEthType_lenR (et : BitVec 16) (s : State) : (s.latchEthType et).lenR = s.lenR := rfl
@[simp] theorem State.latchEthType_ethType (et : BitVec 16) (s : State) : (s.latchEthType et).ethType = et := rfl
@[simp] theorem State.latchEthType_vihl (et : BitVec 16) (s : State) : (s.latchEthType et).vihl = s.vihl := rfl
@[simp] theorem State.latchEthType_proto (et : BitVec 16) (s : State) : (s.latchEthType et).proto = s.proto := rfl
@[simp] theorem State.latchEthType_resStatus (et : BitVec 16) (s : State) : (s.latchEthType et).resStatus = s.resStatus := rfl
@[simp] theorem State.latchEthType_resDetail (et : BitVec 16) (s : State) : (s.latchEthType et).resDetail = s.resDetail := rfl
@[simp] theorem State.latchEthType_resOffset (et : BitVec 16) (s : State) : (s.latchEthType et).resOffset = s.resOffset := rfl
@[simp] theorem State.latchEthType_resLength (et : BitVec 16) (s : State) : (s.latchEthType et).resLength = s.resLength := rfl
@[simp] theorem State.latchEthType_fb (et : BitVec 16) (s : State) : (s.latchEthType et).fb = s.fb := rfl
@[simp] theorem State.latchEthType_rdPending (et : BitVec 16) (s : State) : (s.latchEthType et).rdPending = s.rdPending := rfl
@[simp] theorem State.latchEthType_rdData (et : BitVec 16) (s : State) : (s.latchEthType et).rdData = s.rdData := rfl
@[simp] theorem State.latchEthType_disturbed (et : BitVec 16) (s : State) : (s.latchEthType et).disturbed = s.disturbed := rfl
@[simp] theorem State.latchEthType_inputs (et : BitVec 16) (s : State) : (s.latchEthType et).inputs = s.inputs := rfl
@[simp] theorem State.latchEthType_sched (et : BitVec 16) (s : State) : (s.latchEthType et).sched = s.sched := rfl
@[simp] theorem State.latchEthType_log (et : BitVec 16) (s : State) : (s.latchEthType et).log = s.log := rfl
@[simp] theorem State.latchEthType_payloadIntact (et : BitVec 16) (s : State) : (s.latchEthType et).payloadIntact = s.payloadIntact := rfl
@[simp] theorem State.latchEthType_loans (et : BitVec 16) (s : State) : (s.latchEthType et).loans = s.loans := rfl
@[simp] theorem State.latchEthType_lenW (et : BitVec 16) (s : State) : (s.latchEthType et).lenW = s.lenW := rfl
@[simp] theorem State.latchEthType_rdLat (et : BitVec 16) (s : State) : (s.latchEthType et).rdLat = s.rdLat := rfl
@[simp] theorem State.latchEthType_draws (et : BitVec 16) (s : State) : (s.latchEthType et).draws = s.draws := rfl

/-! ### `State.latchVihl` -/

@[simp] theorem State.latchVihl_phase (v : Byte) (s : State) : (s.latchVihl v).phase = s.phase := rfl
@[simp] theorem State.latchVihl_lenR (v : Byte) (s : State) : (s.latchVihl v).lenR = s.lenR := rfl
@[simp] theorem State.latchVihl_ethType (v : Byte) (s : State) : (s.latchVihl v).ethType = s.ethType := rfl
@[simp] theorem State.latchVihl_vihl (v : Byte) (s : State) : (s.latchVihl v).vihl = v := rfl
@[simp] theorem State.latchVihl_proto (v : Byte) (s : State) : (s.latchVihl v).proto = s.proto := rfl
@[simp] theorem State.latchVihl_resStatus (v : Byte) (s : State) : (s.latchVihl v).resStatus = s.resStatus := rfl
@[simp] theorem State.latchVihl_resDetail (v : Byte) (s : State) : (s.latchVihl v).resDetail = s.resDetail := rfl
@[simp] theorem State.latchVihl_resOffset (v : Byte) (s : State) : (s.latchVihl v).resOffset = s.resOffset := rfl
@[simp] theorem State.latchVihl_resLength (v : Byte) (s : State) : (s.latchVihl v).resLength = s.resLength := rfl
@[simp] theorem State.latchVihl_fb (v : Byte) (s : State) : (s.latchVihl v).fb = s.fb := rfl
@[simp] theorem State.latchVihl_rdPending (v : Byte) (s : State) : (s.latchVihl v).rdPending = s.rdPending := rfl
@[simp] theorem State.latchVihl_rdData (v : Byte) (s : State) : (s.latchVihl v).rdData = s.rdData := rfl
@[simp] theorem State.latchVihl_disturbed (v : Byte) (s : State) : (s.latchVihl v).disturbed = s.disturbed := rfl
@[simp] theorem State.latchVihl_inputs (v : Byte) (s : State) : (s.latchVihl v).inputs = s.inputs := rfl
@[simp] theorem State.latchVihl_sched (v : Byte) (s : State) : (s.latchVihl v).sched = s.sched := rfl
@[simp] theorem State.latchVihl_log (v : Byte) (s : State) : (s.latchVihl v).log = s.log := rfl
@[simp] theorem State.latchVihl_payloadIntact (v : Byte) (s : State) : (s.latchVihl v).payloadIntact = s.payloadIntact := rfl
@[simp] theorem State.latchVihl_loans (v : Byte) (s : State) : (s.latchVihl v).loans = s.loans := rfl
@[simp] theorem State.latchVihl_lenW (v : Byte) (s : State) : (s.latchVihl v).lenW = s.lenW := rfl
@[simp] theorem State.latchVihl_rdLat (v : Byte) (s : State) : (s.latchVihl v).rdLat = s.rdLat := rfl
@[simp] theorem State.latchVihl_draws (v : Byte) (s : State) : (s.latchVihl v).draws = s.draws := rfl

/-! ### `State.latchProto` -/

@[simp] theorem State.latchProto_phase (p : Byte) (s : State) : (s.latchProto p).phase = s.phase := rfl
@[simp] theorem State.latchProto_lenR (p : Byte) (s : State) : (s.latchProto p).lenR = s.lenR := rfl
@[simp] theorem State.latchProto_ethType (p : Byte) (s : State) : (s.latchProto p).ethType = s.ethType := rfl
@[simp] theorem State.latchProto_vihl (p : Byte) (s : State) : (s.latchProto p).vihl = s.vihl := rfl
@[simp] theorem State.latchProto_proto (p : Byte) (s : State) : (s.latchProto p).proto = p := rfl
@[simp] theorem State.latchProto_resStatus (p : Byte) (s : State) : (s.latchProto p).resStatus = s.resStatus := rfl
@[simp] theorem State.latchProto_resDetail (p : Byte) (s : State) : (s.latchProto p).resDetail = s.resDetail := rfl
@[simp] theorem State.latchProto_resOffset (p : Byte) (s : State) : (s.latchProto p).resOffset = s.resOffset := rfl
@[simp] theorem State.latchProto_resLength (p : Byte) (s : State) : (s.latchProto p).resLength = s.resLength := rfl
@[simp] theorem State.latchProto_fb (p : Byte) (s : State) : (s.latchProto p).fb = s.fb := rfl
@[simp] theorem State.latchProto_rdPending (p : Byte) (s : State) : (s.latchProto p).rdPending = s.rdPending := rfl
@[simp] theorem State.latchProto_rdData (p : Byte) (s : State) : (s.latchProto p).rdData = s.rdData := rfl
@[simp] theorem State.latchProto_disturbed (p : Byte) (s : State) : (s.latchProto p).disturbed = s.disturbed := rfl
@[simp] theorem State.latchProto_inputs (p : Byte) (s : State) : (s.latchProto p).inputs = s.inputs := rfl
@[simp] theorem State.latchProto_sched (p : Byte) (s : State) : (s.latchProto p).sched = s.sched := rfl
@[simp] theorem State.latchProto_log (p : Byte) (s : State) : (s.latchProto p).log = s.log := rfl
@[simp] theorem State.latchProto_payloadIntact (p : Byte) (s : State) : (s.latchProto p).payloadIntact = s.payloadIntact := rfl
@[simp] theorem State.latchProto_loans (p : Byte) (s : State) : (s.latchProto p).loans = s.loans := rfl
@[simp] theorem State.latchProto_lenW (p : Byte) (s : State) : (s.latchProto p).lenW = s.lenW := rfl
@[simp] theorem State.latchProto_rdLat (p : Byte) (s : State) : (s.latchProto p).rdLat = s.rdLat := rfl
@[simp] theorem State.latchProto_draws (p : Byte) (s : State) : (s.latchProto p).draws = s.draws := rfl

/-! ### `State.concluded` -/

@[simp] theorem State.concluded_phase (r : Response) (s : State) : (s.concluded r).phase = .resp := rfl
@[simp] theorem State.concluded_lenR (r : Response) (s : State) : (s.concluded r).lenR = s.lenR := rfl
@[simp] theorem State.concluded_ethType (r : Response) (s : State) : (s.concluded r).ethType = s.ethType := rfl
@[simp] theorem State.concluded_vihl (r : Response) (s : State) : (s.concluded r).vihl = s.vihl := rfl
@[simp] theorem State.concluded_proto (r : Response) (s : State) : (s.concluded r).proto = s.proto := rfl
@[simp] theorem State.concluded_resStatus (r : Response) (s : State) : (s.concluded r).resStatus = r.status := rfl
@[simp] theorem State.concluded_resDetail (r : Response) (s : State) : (s.concluded r).resDetail = r.detail := rfl
@[simp] theorem State.concluded_resOffset (r : Response) (s : State) : (s.concluded r).resOffset = lowBits s.lenW r.offset := rfl
@[simp] theorem State.concluded_resLength (r : Response) (s : State) : (s.concluded r).resLength = lowBits s.lenW r.length := rfl
@[simp] theorem State.concluded_fb (r : Response) (s : State) : (s.concluded r).fb = s.fb := rfl
@[simp] theorem State.concluded_rdPending (r : Response) (s : State) : (s.concluded r).rdPending = [] := rfl
@[simp] theorem State.concluded_rdData (r : Response) (s : State) : (s.concluded r).rdData = [] := rfl
@[simp] theorem State.concluded_disturbed (r : Response) (s : State) : (s.concluded r).disturbed = false := rfl
@[simp] theorem State.concluded_inputs (r : Response) (s : State) : (s.concluded r).inputs = s.inputs := rfl
@[simp] theorem State.concluded_sched (r : Response) (s : State) : (s.concluded r).sched = s.sched := rfl
@[simp] theorem State.concluded_log (r : Response) (s : State) : (s.concluded r).log = s.log := rfl
@[simp] theorem State.concluded_payloadIntact (r : Response) (s : State) : (s.concluded r).payloadIntact = !s.disturbed := rfl
@[simp] theorem State.concluded_loans (r : Response) (s : State) : (s.concluded r).loans = s.loans := rfl
@[simp] theorem State.concluded_lenW (r : Response) (s : State) : (s.concluded r).lenW = s.lenW := rfl
@[simp] theorem State.concluded_rdLat (r : Response) (s : State) : (s.concluded r).rdLat = s.rdLat := rfl
@[simp] theorem State.concluded_draws (r : Response) (s : State) : (s.concluded r).draws = s.draws := rfl

/-! ### `State.delivered` -/

@[simp] theorem State.delivered_phase (s : State) : (s.delivered).phase = .idle := rfl
@[simp] theorem State.delivered_lenR (s : State) : (s.delivered).lenR = s.lenR := rfl
@[simp] theorem State.delivered_ethType (s : State) : (s.delivered).ethType = Config.freeEthType s.draws := rfl
@[simp] theorem State.delivered_vihl (s : State) : (s.delivered).vihl = Config.freeVihl s.draws := rfl
@[simp] theorem State.delivered_proto (s : State) : (s.delivered).proto = Config.freeProto s.draws := rfl
@[simp] theorem State.delivered_resStatus (s : State) : (s.delivered).resStatus = s.resStatus := rfl
@[simp] theorem State.delivered_resDetail (s : State) : (s.delivered).resDetail = s.resDetail := rfl
@[simp] theorem State.delivered_resOffset (s : State) : (s.delivered).resOffset = s.resOffset := rfl
@[simp] theorem State.delivered_resLength (s : State) : (s.delivered).resLength = s.resLength := rfl
@[simp] theorem State.delivered_fb (s : State) : (s.delivered).fb = s.fb := rfl
@[simp] theorem State.delivered_rdPending (s : State) : (s.delivered).rdPending = s.rdPending := rfl
@[simp] theorem State.delivered_rdData (s : State) : (s.delivered).rdData = s.rdData := rfl
@[simp] theorem State.delivered_disturbed (s : State) : (s.delivered).disturbed = s.disturbed := rfl
@[simp] theorem State.delivered_inputs (s : State) : (s.delivered).inputs = s.inputs := rfl
@[simp] theorem State.delivered_sched (s : State) : (s.delivered).sched = s.sched := rfl
@[simp] theorem State.delivered_log (s : State) : (s.delivered).log = s.log ++ [s.response] := rfl
@[simp] theorem State.delivered_payloadIntact (s : State) : (s.delivered).payloadIntact = s.payloadIntact := rfl
@[simp] theorem State.delivered_loans (s : State) : (s.delivered).loans = s.loans ++ s.newLoans := rfl
@[simp] theorem State.delivered_lenW (s : State) : (s.delivered).lenW = s.lenW := rfl
@[simp] theorem State.delivered_rdLat (s : State) : (s.delivered).rdLat = s.rdLat := rfl
@[simp] theorem State.delivered_draws (s : State) : (s.delivered).draws = s.draws + 1 := rfl

/-! ### `State.resetEdge` -/

@[simp] theorem State.resetEdge_phase (s : State) : (s.resetEdge).phase = .idle := rfl
@[simp] theorem State.resetEdge_lenR (s : State) : (s.resetEdge).lenR = lowBits s.lenW (Config.freeLen s.draws) := rfl
@[simp] theorem State.resetEdge_ethType (s : State) : (s.resetEdge).ethType = Config.freeEthType s.draws := rfl
@[simp] theorem State.resetEdge_vihl (s : State) : (s.resetEdge).vihl = Config.freeVihl s.draws := rfl
@[simp] theorem State.resetEdge_proto (s : State) : (s.resetEdge).proto = Config.freeProto s.draws := rfl
@[simp] theorem State.resetEdge_resStatus (s : State) : (s.resetEdge).resStatus = 0b000 := rfl
@[simp] theorem State.resetEdge_resDetail (s : State) : (s.resetEdge).resDetail = 0x0 := rfl
@[simp] theorem State.resetEdge_resOffset (s : State) : (s.resetEdge).resOffset = 0 := rfl
@[simp] theorem State.resetEdge_resLength (s : State) : (s.resetEdge).resLength = 0 := rfl
@[simp] theorem State.resetEdge_fb (s : State) : (s.resetEdge).fb = s.fb := rfl
@[simp] theorem State.resetEdge_rdPending (s : State) : (s.resetEdge).rdPending = [] := rfl
@[simp] theorem State.resetEdge_rdData (s : State) : (s.resetEdge).rdData = [] := rfl
@[simp] theorem State.resetEdge_disturbed (s : State) : (s.resetEdge).disturbed = false := rfl
@[simp] theorem State.resetEdge_inputs (s : State) : (s.resetEdge).inputs = s.inputs := rfl
@[simp] theorem State.resetEdge_sched (s : State) : (s.resetEdge).sched = s.sched := rfl
@[simp] theorem State.resetEdge_log (s : State) : (s.resetEdge).log = s.log := rfl
@[simp] theorem State.resetEdge_payloadIntact (s : State) : (s.resetEdge).payloadIntact = s.payloadIntact := rfl
@[simp] theorem State.resetEdge_loans (s : State) : (s.resetEdge).loans = s.loans := rfl
@[simp] theorem State.resetEdge_lenW (s : State) : (s.resetEdge).lenW = s.lenW := rfl
@[simp] theorem State.resetEdge_rdLat (s : State) : (s.resetEdge).rdLat = s.rdLat := rfl
@[simp] theorem State.resetEdge_draws (s : State) : (s.resetEdge).draws = s.draws + 1 := rfl

/-! ### `State.endCycle` -/

@[simp] theorem State.endCycle_phase (s : State) : (s.endCycle).phase = s.phase := rfl
@[simp] theorem State.endCycle_lenR (s : State) : (s.endCycle).lenR = s.lenR := rfl
@[simp] theorem State.endCycle_ethType (s : State) : (s.endCycle).ethType = s.ethType := rfl
@[simp] theorem State.endCycle_vihl (s : State) : (s.endCycle).vihl = s.vihl := rfl
@[simp] theorem State.endCycle_proto (s : State) : (s.endCycle).proto = s.proto := rfl
@[simp] theorem State.endCycle_resStatus (s : State) : (s.endCycle).resStatus = s.resStatus := rfl
@[simp] theorem State.endCycle_resDetail (s : State) : (s.endCycle).resDetail = s.resDetail := rfl
@[simp] theorem State.endCycle_resOffset (s : State) : (s.endCycle).resOffset = s.resOffset := rfl
@[simp] theorem State.endCycle_resLength (s : State) : (s.endCycle).resLength = s.resLength := rfl
@[simp] theorem State.endCycle_fb (s : State) : (s.endCycle).fb = Memory.writes s.fb s.incoming := rfl
@[simp] theorem State.endCycle_rdPending (s : State) : (s.endCycle).rdPending = s.rdPending := rfl
@[simp] theorem State.endCycle_rdData (s : State) : (s.endCycle).rdData = s.rdData := rfl
@[simp] theorem State.endCycle_disturbed (s : State) : (s.endCycle).disturbed = s.disturbed := rfl
@[simp] theorem State.endCycle_inputs (s : State) : (s.endCycle).inputs = s.inputs.tail := rfl
@[simp] theorem State.endCycle_sched (s : State) : (s.endCycle).sched = s.sched := rfl
@[simp] theorem State.endCycle_log (s : State) : (s.endCycle).log = s.log := rfl
@[simp] theorem State.endCycle_payloadIntact (s : State) : (s.endCycle).payloadIntact = 
      (s.payloadIntact && !writesFrame (s.resOffset + s.resLength) s.incoming) := rfl
@[simp] theorem State.endCycle_loans (s : State) : (s.endCycle).loans = s.loans.map (Loan.note s.incoming) := rfl
@[simp] theorem State.endCycle_lenW (s : State) : (s.endCycle).lenW = s.lenW := rfl
@[simp] theorem State.endCycle_rdLat (s : State) : (s.endCycle).rdLat = s.rdLat := rfl
@[simp] theorem State.endCycle_draws (s : State) : (s.endCycle).draws = s.draws := rfl

/-! ### `State.disturb` -/

@[simp] theorem State.disturb_phase (s : State) : (s.disturb).phase = s.phase := rfl
@[simp] theorem State.disturb_lenR (s : State) : (s.disturb).lenR = s.lenR := rfl
@[simp] theorem State.disturb_ethType (s : State) : (s.disturb).ethType = s.ethType := rfl
@[simp] theorem State.disturb_vihl (s : State) : (s.disturb).vihl = s.vihl := rfl
@[simp] theorem State.disturb_proto (s : State) : (s.disturb).proto = s.proto := rfl
@[simp] theorem State.disturb_resStatus (s : State) : (s.disturb).resStatus = s.resStatus := rfl
@[simp] theorem State.disturb_resDetail (s : State) : (s.disturb).resDetail = s.resDetail := rfl
@[simp] theorem State.disturb_resOffset (s : State) : (s.disturb).resOffset = s.resOffset := rfl
@[simp] theorem State.disturb_resLength (s : State) : (s.disturb).resLength = s.resLength := rfl
@[simp] theorem State.disturb_fb (s : State) : (s.disturb).fb = s.fb := rfl
@[simp] theorem State.disturb_rdPending (s : State) : (s.disturb).rdPending = s.rdPending := rfl
@[simp] theorem State.disturb_rdData (s : State) : (s.disturb).rdData = 
      s.rdData.map (fun p => (p.1, Config.freeRead s.draws p.1)) := rfl
@[simp] theorem State.disturb_disturbed (s : State) : (s.disturb).disturbed = true := rfl
@[simp] theorem State.disturb_inputs (s : State) : (s.disturb).inputs = s.inputs := rfl
@[simp] theorem State.disturb_sched (s : State) : (s.disturb).sched = s.sched := rfl
@[simp] theorem State.disturb_log (s : State) : (s.disturb).log = s.log := rfl
@[simp] theorem State.disturb_payloadIntact (s : State) : (s.disturb).payloadIntact = s.payloadIntact := rfl
@[simp] theorem State.disturb_loans (s : State) : (s.disturb).loans = s.loans := rfl
@[simp] theorem State.disturb_lenW (s : State) : (s.disturb).lenW = s.lenW := rfl
@[simp] theorem State.disturb_rdLat (s : State) : (s.disturb).rdLat = s.rdLat := rfl
@[simp] theorem State.disturb_draws (s : State) : (s.disturb).draws = s.draws + 1 := rfl

/-! ### `State.sample` -/

@[simp] theorem State.sample_phase (s : State) : (s.sample).phase = s.phase := rfl
@[simp] theorem State.sample_lenR (s : State) : (s.sample).lenR = s.lenR := rfl
@[simp] theorem State.sample_ethType (s : State) : (s.sample).ethType = s.ethType := rfl
@[simp] theorem State.sample_vihl (s : State) : (s.sample).vihl = s.vihl := rfl
@[simp] theorem State.sample_proto (s : State) : (s.sample).proto = s.proto := rfl
@[simp] theorem State.sample_resStatus (s : State) : (s.sample).resStatus = s.resStatus := rfl
@[simp] theorem State.sample_resDetail (s : State) : (s.sample).resDetail = s.resDetail := rfl
@[simp] theorem State.sample_resOffset (s : State) : (s.sample).resOffset = s.resOffset := rfl
@[simp] theorem State.sample_resLength (s : State) : (s.sample).resLength = s.resLength := rfl
@[simp] theorem State.sample_fb (s : State) : (s.sample).fb = s.fb := rfl
@[simp] theorem State.sample_rdPending (s : State) : (s.sample).rdPending = 
      (s.rdPending.filter (fun p => decide (1 < p.2))).map (fun p => (p.1, p.2 - 1)) := rfl
@[simp] theorem State.sample_rdData (s : State) : (s.sample).rdData = 
      s.rdData ++ s.arriving.map (fun a => (a, s.answer a)) := rfl
@[simp] theorem State.sample_disturbed (s : State) : (s.sample).disturbed = s.disturbed := rfl
@[simp] theorem State.sample_inputs (s : State) : (s.sample).inputs = s.inputs := rfl
@[simp] theorem State.sample_sched (s : State) : (s.sample).sched = s.sched := rfl
@[simp] theorem State.sample_log (s : State) : (s.sample).log = s.log := rfl
@[simp] theorem State.sample_payloadIntact (s : State) : (s.sample).payloadIntact = s.payloadIntact := rfl
@[simp] theorem State.sample_loans (s : State) : (s.sample).loans = s.loans := rfl
@[simp] theorem State.sample_lenW (s : State) : (s.sample).lenW = s.lenW := rfl
@[simp] theorem State.sample_rdLat (s : State) : (s.sample).rdLat = s.rdLat := rfl
@[simp] theorem State.sample_draws (s : State) : (s.sample).draws = 
      if s.disturbed = true then s.draws + 1 else s.draws := rfl

/-! ### `State.issueRead` -/

@[simp] theorem State.issueRead_phase (a : Nat) (s : State) : (s.issueRead a).phase = s.phase := rfl
@[simp] theorem State.issueRead_lenR (a : Nat) (s : State) : (s.issueRead a).lenR = s.lenR := rfl
@[simp] theorem State.issueRead_ethType (a : Nat) (s : State) : (s.issueRead a).ethType = s.ethType := rfl
@[simp] theorem State.issueRead_vihl (a : Nat) (s : State) : (s.issueRead a).vihl = s.vihl := rfl
@[simp] theorem State.issueRead_proto (a : Nat) (s : State) : (s.issueRead a).proto = s.proto := rfl
@[simp] theorem State.issueRead_resStatus (a : Nat) (s : State) : (s.issueRead a).resStatus = s.resStatus := rfl
@[simp] theorem State.issueRead_resDetail (a : Nat) (s : State) : (s.issueRead a).resDetail = s.resDetail := rfl
@[simp] theorem State.issueRead_resOffset (a : Nat) (s : State) : (s.issueRead a).resOffset = s.resOffset := rfl
@[simp] theorem State.issueRead_resLength (a : Nat) (s : State) : (s.issueRead a).resLength = s.resLength := rfl
@[simp] theorem State.issueRead_fb (a : Nat) (s : State) : (s.issueRead a).fb = s.fb := rfl
@[simp] theorem State.issueRead_rdPending (a : Nat) (s : State) : (s.issueRead a).rdPending = s.rdPending ++ [(a, s.rdLat)] := rfl
@[simp] theorem State.issueRead_rdData (a : Nat) (s : State) : (s.issueRead a).rdData = s.rdData := rfl
@[simp] theorem State.issueRead_disturbed (a : Nat) (s : State) : (s.issueRead a).disturbed = s.disturbed := rfl
@[simp] theorem State.issueRead_inputs (a : Nat) (s : State) : (s.issueRead a).inputs = s.inputs := rfl
@[simp] theorem State.issueRead_sched (a : Nat) (s : State) : (s.issueRead a).sched = s.sched := rfl
@[simp] theorem State.issueRead_log (a : Nat) (s : State) : (s.issueRead a).log = s.log := rfl
@[simp] theorem State.issueRead_payloadIntact (a : Nat) (s : State) : (s.issueRead a).payloadIntact = s.payloadIntact := rfl
@[simp] theorem State.issueRead_loans (a : Nat) (s : State) : (s.issueRead a).loans = s.loans := rfl
@[simp] theorem State.issueRead_lenW (a : Nat) (s : State) : (s.issueRead a).lenW = s.lenW := rfl
@[simp] theorem State.issueRead_rdLat (a : Nat) (s : State) : (s.issueRead a).rdLat = s.rdLat := rfl
@[simp] theorem State.issueRead_draws (a : Nat) (s : State) : (s.issueRead a).draws = s.draws := rfl

/-! ### `State.popMove` -/

@[simp] theorem State.popMove_phase (s : State) : (s.popMove).phase = s.phase := rfl
@[simp] theorem State.popMove_lenR (s : State) : (s.popMove).lenR = s.lenR := rfl
@[simp] theorem State.popMove_ethType (s : State) : (s.popMove).ethType = s.ethType := rfl
@[simp] theorem State.popMove_vihl (s : State) : (s.popMove).vihl = s.vihl := rfl
@[simp] theorem State.popMove_proto (s : State) : (s.popMove).proto = s.proto := rfl
@[simp] theorem State.popMove_resStatus (s : State) : (s.popMove).resStatus = s.resStatus := rfl
@[simp] theorem State.popMove_resDetail (s : State) : (s.popMove).resDetail = s.resDetail := rfl
@[simp] theorem State.popMove_resOffset (s : State) : (s.popMove).resOffset = s.resOffset := rfl
@[simp] theorem State.popMove_resLength (s : State) : (s.popMove).resLength = s.resLength := rfl
@[simp] theorem State.popMove_fb (s : State) : (s.popMove).fb = s.fb := rfl
@[simp] theorem State.popMove_rdPending (s : State) : (s.popMove).rdPending = s.rdPending := rfl
@[simp] theorem State.popMove_rdData (s : State) : (s.popMove).rdData = s.rdData := rfl
@[simp] theorem State.popMove_disturbed (s : State) : (s.popMove).disturbed = s.disturbed := rfl
@[simp] theorem State.popMove_inputs (s : State) : (s.popMove).inputs = s.inputs := rfl
@[simp] theorem State.popMove_sched (s : State) : (s.popMove).sched = s.sched.tail := rfl
@[simp] theorem State.popMove_log (s : State) : (s.popMove).log = s.log := rfl
@[simp] theorem State.popMove_payloadIntact (s : State) : (s.popMove).payloadIntact = s.payloadIntact := rfl
@[simp] theorem State.popMove_loans (s : State) : (s.popMove).loans = s.loans := rfl
@[simp] theorem State.popMove_lenW (s : State) : (s.popMove).lenW = s.lenW := rfl
@[simp] theorem State.popMove_rdLat (s : State) : (s.popMove).rdLat = s.rdLat := rfl
@[simp] theorem State.popMove_draws (s : State) : (s.popMove).draws = s.draws := rfl

end Sys2Proof.Machine
end

