-- ==== Sys2Proof/Laws/Exec.lean ====
section
/-! SUPPORT. What an instruction can do, said once: what `concludeIf` answers, when a row takes its
effect, and the shape of every next state of exec. -/

namespace Sys2Proof.Machine

/-- The row's effect, in BUSY with its condition true. -/
theorem State.concludeIf_pos {s after : State} {c : Bool} (hb : s.phase = .busy) (hc : c = true) :
    s.concludeIf c after = .next after := by
  simp [State.concludeIf, hb, hc]

/-- No effect otherwise. -/
theorem State.concludeIf_neg {s after : State} {c : Bool} (h : ¬ (s.phase = .busy ∧ c = true)) :
    s.concludeIf c after = .next s := if_neg h

/-- `concludeIf` answers one of two next states. -/
theorem State.concludeIf_cases {s after t : State} {c : Bool}
    (h : s.concludeIf c after = .next t) :
    (t = after ∧ s.phase = .busy ∧ c = true) ∨ t = s := by
  unfold State.concludeIf at h
  split at h
  · rename_i hc; exact .inl ⟨by cases h; rfl, hc⟩
  · exact .inr (by cases h; rfl)

/-- A rejection's response fits a frame of any length. -/
theorem responseFits_reject (len : Nat) (v : Byte) {d : Detail} (hd : d ≠ .none) :
    responseFits len v (Result.reject d).bits := by
  cases d <;> first | exact absurd rfl hd | simp [responseFits, Result.reject, Result.bits,
    Detail.status, Detail.code, Status.code, legalCodes, Detail.all]

/-- The accept row's response fits the frame it was formed for. -/
theorem responseFits_accept {len : Nat} {ihl : BitVec 4} (h5 : 5 ≤ ihl.toNat)
    (hlen : payloadOffset ihl < len) :
    responseFits len (versionIpv4 ++ ihl)
      (Result.accept (payloadOffset ihl) (len - payloadOffset ihl)).bits := by
  simp only [payloadOffset, ipEnd, ethHdrLen, ihlUnit, udpHdrLen] at *
  refine ⟨by rfl, fun h => absurd rfl h, fun _ => ?_⟩
  simp only [ihlOf, (version_ihl_of_append versionIpv4 ihl).2, Result.accept, Result.bits]
  omega

/-- Neither number of a response that fits a frame is longer than the frame. -/
theorem responseFits_le {len : Nat} {v : Byte} {r : Response} (h : responseFits len v r) :
    r.offset ≤ len ∧ r.length ≤ len := by
  by_cases hs : r.status = Status.ok.code
  · have := h.2.2 hs; omega
  · have := h.2.1 hs; omega

/-- A number of `w` bits is its own low `w` bits. -/
theorem lowBits_eq {w n : Nat} (h : n < 2 ^ w) : lowBits w n = n := Nat.mod_eq_of_lt h

theorem lowBits_lt (w n : Nat) : lowBits w n < 2 ^ w := Nat.mod_lt _ (Nat.two_pow_pos w)

@[simp] theorem lowBits_zero (w : Nat) : lowBits w 0 = 0 := Nat.zero_mod _

@[simp] theorem lowBits_mod (w n : Nat) : lowBits w (n % 2 ^ w) = lowBits w n := Nat.mod_mod n _

/-- The result registers take a response that fits a frame within `LEN_W` bits as it is. -/
theorem State.concluded_response {len : Nat} {v : Byte} {r : Response} {s : State}
    (h : responseFits len v r) (hl : len < 2 ^ s.lenW) : (s.concluded r).response = r := by
  have := responseFits_le h
  unfold State.response State.concluded
  simp only [lowBits_eq (this.1.trans_lt hl), lowBits_eq (this.2.trans_lt hl)]

/-- The shape of an outcome row's effect: it writes some of the header registers and then the result
registers, with a response that fits the frame, and ends BUSY. -/
def Concludes (s t : State) : Prop :=
  ∃ (et : BitVec 16) (v p : Byte) (r : Response),
    responseFits s.lenR v r ∧
    t = (((s.latchEthType et).latchVihl v).latchProto p).concluded r

/-- Everything that an instruction can do. -/
theorem exec_cases {i : Instr} {s t : State} (h : exec i s = .next t) :
    t = s ∨ (s.phase = .idle ∧ ∃ n, i = .extract n ∧ t = s.accepted n) ∨
      (s.phase = .busy ∧ i.isOutcome = true ∧ Concludes s t) := by
  cases i with
  | extract n =>
    simp only [exec, execExtract] at h
    split at h
    · exact .inr (.inl ⟨‹_›, n, rfl, by cases h; rfl⟩)
    · exact .inl (by cases h; rfl)
  | rejEthTruncated =>
    rcases State.concludeIf_cases h with ⟨rfl, hb, -⟩ | rfl
    · exact .inr (.inr ⟨hb, rfl, s.ethType, s.vihl, s.proto, _,
        responseFits_reject _ _ (by decide), rfl⟩)
    · exact .inl rfl
  | rejBadEthertype et =>
    rcases State.concludeIf_cases h with ⟨rfl, hb, -⟩ | rfl
    · exact .inr (.inr ⟨hb, rfl, et, s.vihl, s.proto, _,
        responseFits_reject _ _ (by decide), rfl⟩)
    · exact .inl rfl
  | rejIpv4Truncated =>
    rcases State.concludeIf_cases h with ⟨rfl, hb, -⟩ | rfl
    · exact .inr (.inr ⟨hb, rfl, etherTypeIpv4, s.vihl, s.proto, _,
        responseFits_reject _ _ (by decide), rfl⟩)
    · exact .inl rfl
  | rejBadVersion version ihl =>
    rcases State.concludeIf_cases h with ⟨rfl, hb, -⟩ | rfl
    · exact .inr (.inr ⟨hb, rfl, etherTypeIpv4, version ++ ihl, s.proto, _,
        responseFits_reject _ _ (by decide), rfl⟩)
    · exact .inl rfl
  | rejBadIhl ihl =>
    rcases State.concludeIf_cases h with ⟨rfl, hb, -⟩ | rfl
    · exact .inr (.inr ⟨hb, rfl, etherTypeIpv4, versionIpv4 ++ ihl, s.proto, _,
        responseFits_reject _ _ (by decide), rfl⟩)
    · exact .inl rfl
  | rejIpv4OptionsTruncated ihl =>
    rcases State.concludeIf_cases h with ⟨rfl, hb, -⟩ | rfl
    · exact .inr (.inr ⟨hb, rfl, etherTypeIpv4, versionIpv4 ++ ihl, s.proto, _,
        responseFits_reject _ _ (by decide), rfl⟩)
    · exact .inl rfl
  | rejNotUdp ihl proto =>
    rcases State.concludeIf_cases h with ⟨rfl, hb, -⟩ | rfl
    · exact .inr (.inr ⟨hb, rfl, etherTypeIpv4, versionIpv4 ++ ihl, proto, _,
        responseFits_reject _ _ (by decide), rfl⟩)
    · exact .inl rfl
  | rejUdpHdrTruncated ihl =>
    rcases State.concludeIf_cases h with ⟨rfl, hb, -⟩ | rfl
    · exact .inr (.inr ⟨hb, rfl, etherTypeIpv4, versionIpv4 ++ ihl, protoUdp, _,
        responseFits_reject _ _ (by decide), rfl⟩)
    · exact .inl rfl
  | rejEmptyPayload ihl =>
    rcases State.concludeIf_cases h with ⟨rfl, hb, -⟩ | rfl
    · exact .inr (.inr ⟨hb, rfl, etherTypeIpv4, versionIpv4 ++ ihl, protoUdp, _,
        responseFits_reject _ _ (by decide), rfl⟩)
    · exact .inl rfl
  | accept ihl =>
    rcases State.concludeIf_cases h with ⟨rfl, hb, hc⟩ | rfl
    · have hc := of_decide_eq_true hc
      exact .inr (.inr ⟨hb, rfl, etherTypeIpv4, versionIpv4 ++ ihl, protoUdp, _,
        responseFits_accept hc.1 hc.2, rfl⟩)
    · exact .inl rfl

/-- No instruction faults and none is refused. -/
theorem exec_answers (i : Instr) (s : State) : ∃ t, exec i s = .next t := by
  cases i <;>
    simp only [exec, execExtract, execRejEthTruncated, execRejBadEthertype, execRejIpv4Truncated,
      execRejBadVersion, execRejBadIhl, execRejIpv4OptionsTruncated, execRejNotUdp,
      execRejUdpHdrTruncated, execRejEmptyPayload, execAccept, State.concludeIf] <;>
    split <;> exact ⟨_, rfl⟩

/-- The invariant says nothing of the coming inputs. -/
theorem Invariant.withInputs {s : State} (h : Invariant s) (cs : List PortIn) :
    Invariant { s with inputs := cs } where
  canonical := h.canonical
  inside := h.inside
  registers := h.registers
  result := h.result
  readPort := h.readPort
  loans := h.loans
  rdLat := h.rdLat
  lenW := h.lenW

end Sys2Proof.Machine
end

