-- ==== Sys2Proof/Laws/Operands.lean ====
section
/-! SUPPORT. The read that comes next, said once: in plain numbers, what it is when there is one, and
that the row is settled when there is none. -/

namespace Sys2Proof.Machine

/-- A byte is a version and an IHL exactly when its halves are. -/
theorem eq_version_ihl_iff {v : Byte} {version ihl : BitVec 4} :
    v = version ++ ihl ↔ v.extractLsb' 4 4 = version ∧ v.extractLsb' 0 4 = ihl := by
  constructor
  · rintro rfl; exact version_ihl_of_append version ihl
  · rintro ⟨rfl, rfl⟩
    apply BitVec.eq_of_getLsbD_eq
    intro i hi
    simp only [BitVec.getLsbD_append, BitVec.getLsbD_extractLsb']
    by_cases h : i < 4
    · simp [h]
    · simp [h, show 4 + (i - 4) = i by omega, show i - 4 < 4 by omega]

/-- The read set in numbers. -/
theorem keyAddrs_eq : keyAddrs = [12, 13, 14, 23] := rfl

theorem mem_keyAddrs {a : Nat} : a ∈ keyAddrs ↔ a = 12 ∨ a = 13 ∨ a = 14 ∨ a = 23 := by
  simp [keyAddrs_eq]

/-- The next read in plain numbers. -/
theorem nextRead_eq (len : Nat) (rd : Nat → Option Byte) :
    nextRead len rd =
      if len < 14 then none
      else
        match rd 12, rd 13 with
        | none, _ => some (12 : Nat)
        | _, none => some (13 : Nat)
        | some hi, some lo =>
          if hi ++ lo ≠ 0x0800#16 then none
          else if len < 34 then none
          else
            match rd 14 with
            | none => some (14 : Nat)
            | some v =>
              if v.extractLsb' 4 4 ≠ 4#4 then none
              else if (v.extractLsb' 0 4).toNat < 5 then none
              else if len < 14 + 4 * (v.extractLsb' 0 4).toNat then none
              else match rd 23 with
                | none => some (23 : Nat)
                | some _ => none := rfl

/-- A read that comes next is in the read set, within the frame, and not answered yet. -/
theorem nextRead_some {len : Nat} {rd : Nat → Option Byte} {a : Nat}
    (h : nextRead len rd = some a) : a ∈ keyAddrs ∧ a < len ∧ rd a = none := by
  rw [nextRead_eq] at h
  split at h
  · cases h
  · split at h
    · injection h with h; subst h
      exact ⟨by decide, by omega, ‹_›⟩
    · injection h with h; subst h
      exact ⟨by decide, by omega, ‹_›⟩
    · split at h
      · cases h
      · split at h
        · cases h
        · split at h
          · injection h with h; subst h
            exact ⟨by decide, by omega, ‹_›⟩
          · split at h
            · cases h
            · split at h
              · cases h
              · split at h
                · cases h
                · split at h
                  · injection h with h; subst h
                    exact ⟨by decide, by omega, ‹_›⟩
                  · cases h

/-- When no read is needed the answered bytes settle the row: every memory that agrees with them gives
the row that the key with zeros for the rest gives. -/
theorem decodeKey_of_nextRead_none {len : Nat} {rd : Nat → Option Byte} {m : Nat → Byte}
    (h : nextRead len rd = none) (hm : ∀ a b, rd a = some b → m a = b) :
    decodeKey len (makeKey ((rd 12).getD 0) ((rd 13).getD 0) ((rd 14).getD 0) ((rd 23).getD 0)) =
      decodeKey len (makeKey (m 12) (m 13) (m 14) (m 23)) := by
  rw [nextRead_eq] at h
  rw [decodeKey_chain, decodeKey_chain]
  simp only [keyEthType_makeKey, keyVersion_makeKey, keyIhl_makeKey, keyProto_makeKey]
  by_cases h1 : len < 14
  · simp [h1]
  rw [if_neg h1] at h ⊢
  rw [if_neg h1]
  cases h12 : rd 12 with
  | none => simp only [h12] at h; cases h
  | some b12 =>
  cases h13 : rd 13 with
  | none => simp only [h12, h13] at h; cases h
  | some b13 =>
  rw [hm 12 b12 h12, hm 13 b13 h13]
  simp only [h12, h13, Option.getD_some] at h ⊢
  by_cases h2 : b12 ++ b13 ≠ 0x0800#16
  · simp only [if_pos h2]
  rw [if_neg h2] at h
  simp only [if_neg h2]
  by_cases h3 : len < 34
  · simp only [if_pos h3]
  rw [if_neg h3] at h
  simp only [if_neg h3]
  cases h14 : rd 14 with
  | none => simp only [h14] at h; cases h
  | some b14 =>
  rw [hm 14 b14 h14]
  simp only [h14, Option.getD_some] at h ⊢
  by_cases h4 : b14.extractLsb' 4 4 ≠ 4#4
  · simp only [if_pos h4]
  rw [if_neg h4] at h
  simp only [if_neg h4]
  by_cases h5 : (b14.extractLsb' 0 4).toNat < 5
  · simp only [if_pos h5]
  rw [if_neg h5] at h
  simp only [if_neg h5]
  by_cases h6 : len < 14 + 4 * (b14.extractLsb' 0 4).toNat
  · simp only [if_pos h6]
  rw [if_neg h6] at h
  simp only [if_neg h6]
  cases h23 : rd 23 with
  | none => simp only [h23] at h; cases h
  | some b23 => simp only [hm 23 b23 h23, Option.getD_some]

/-- The key of the answered bytes in plain numbers. -/
theorem sampledKey_eq (d : List (Nat × Byte)) :
    sampledKey d = makeKey ((sampled d 12).getD 0) ((sampled d 13).getD 0)
      ((sampled d 14).getD 0) ((sampled d 23).getD 0) := rfl

end Sys2Proof.Machine
end

