-- ==== Sys2Proof/Laws/Extract.lean ====
section
/-! SUPPORT. The bridge between the numbers of rule R101 and the bit fields of the classification key,
and `Extract` as the result of the row that the table selects. -/

namespace Sys2Proof.Machine

/-- The EtherType test of stage E2 in numbers and in bits (rule R45). -/
theorem etherType_ne_iff (b12 b13 : Byte) :
    256 * b12.toNat + b13.toNat ≠ 0x0800 ↔ b12 ++ b13 ≠ 0x0800#16 := by
  have h : (b12 ++ b13).toNat = 256 * b12.toNat + b13.toNat := by
    rw [BitVec.toNat_append, Nat.shiftLeft_eq, Nat.mul_comm,
      ← Nat.two_pow_add_eq_or_of_lt b13.isLt]
  rw [not_iff_not, ← h, ← BitVec.toNat_inj]; rfl

/-- The version test of stage I2 in numbers and in bits (rule R64). -/
theorem version_ne_iff (b : Byte) : b.toNat / 16 ≠ 4 ↔ b.extractLsb' 4 4 ≠ 4#4 := by
  have h : (b.extractLsb' 4 4).toNat = b.toNat / 16 := by
    simp [BitVec.extractLsb'_toNat, Nat.shiftRight_eq_div_pow]; omega
  rw [not_iff_not, ← h, ← BitVec.toNat_inj]; rfl

/-- IHL in numbers and in bits (rule R64). -/
theorem ihl_toNat (b : Byte) : (b.extractLsb' 0 4).toNat = b.toNat % 16 := by
  simp [BitVec.extractLsb'_toNat]

/-- The protocol test of stage U1 in numbers and in bits (rule R65). -/
theorem proto_ne_iff (b : Byte) : b.toNat ≠ 17 ↔ b ≠ 17#8 := by
  rw [not_iff_not, ← BitVec.toNat_inj]; rfl

/-- The result of an outcome row for a frame of `len` bytes. -/
def rowResult (len : Nat) : Instr → Result
  | .extract _ => .reject .none
  | .rejEthTruncated => .reject .ethTruncated
  | .rejBadEthertype _ => .reject .badEthertype
  | .rejIpv4Truncated => .reject .ipv4Truncated
  | .rejBadVersion _ _ => .reject .badVersion
  | .rejBadIhl _ => .reject .badIhl
  | .rejIpv4OptionsTruncated _ => .reject .ipv4OptionsTruncated
  | .rejNotUdp _ _ => .reject .nonUdpProtocol
  | .rejUdpHdrTruncated _ => .reject .udpHdrTruncated
  | .rejEmptyPayload _ => .reject .emptyPayload
  | .accept ihl => .accept (payloadOffset ihl) (len - payloadOffset ihl)

/-- `Extract` is the result of the row that the key and the length select. -/
theorem Extract_eq_rowResult (len : Nat) (rd : Nat → Byte) :
    Extract len rd =
      rowResult len (decodeKey len (makeKey (rd 12) (rd 13) (rd 14) (rd 23))) := by
  rw [decodeKey_chain]
  simp only [keyEthType_makeKey, keyVersion_makeKey, keyIhl_makeKey, keyProto_makeKey, Extract,
    etherType_ne_iff, version_ne_iff, proto_ne_iff, ihl_toNat]
  split_ifs <;> first | rfl | omega

/-- `Extract` depends on no byte outside the key and none at or past the length. -/
theorem Extract_congr {len : Nat} {rd rd' : Nat → Byte}
    (h : ∀ a ∈ [12, 13, 14, 23], a < len → rd a = rd' a) : Extract len rd = Extract len rd' := by
  simp only [List.mem_cons, List.not_mem_nil, or_false, forall_eq_or_imp, forall_eq] at h
  obtain ⟨h12, h13, h14, h23⟩ := h
  unfold Extract
  by_cases h1 : len < 14
  · simp only [if_pos h1]
  rw [h12 (by omega), h13 (by omega)]
  by_cases h2 : len < 34
  · simp only [if_pos h2]
  rw [h14 (by omega), h23 (by omega)]

end Sys2Proof.Machine
end

