-- ==== Sys2Proof/Laws/Memory.lean ====
section
/-! SUPPORT. The laws of the frame buffer: a read after a write, the canonical form under every write,
and that two canonical buffers which read alike are equal. -/

namespace Sys2Proof.Machine

@[simp] theorem Memory.read_nil (a : Nat) : Memory.read [] a = unlistedByte := rfl

theorem Memory.read_cons (c : Host.Cell) (m : Memory) (a : Nat) :
    Memory.read (c :: m) a = if c.1 = a then c.2 else Memory.read m a := rfl

/-- An address that no entry names reads as unlisted. -/
theorem Memory.read_unlisted {m : Memory} {a : Nat} (h : ∀ c ∈ m, c.1 ≠ a) :
    Memory.read m a = unlistedByte := by
  induction m with
  | nil => rfl
  | cons c m ih =>
    rw [Memory.read_cons, if_neg (h c (by simp))]
    exact ih fun x hx => h x (by simp [hx])

/-- In a canonical buffer the entries after the first have higher addresses. -/
theorem Memory.wf_cons {c : Host.Cell} {m : Memory} :
    Memory.wf (c :: m) ↔
      (∀ x ∈ m, c.1 < x.1) ∧ c.2 ≠ unlistedByte ∧ Memory.wf m := by
  simp only [Memory.wf, List.pairwise_cons, List.mem_cons, forall_eq_or_imp]
  tauto

theorem Memory.wf_nil : Memory.wf [] := by simp [Memory.wf]

/-- The addresses of a buffer after a write are those before and the one written. -/
theorem Memory.mem_write {m : Memory} {a : Nat} {b : Byte} {c : Host.Cell}
    (h : c ∈ Memory.write m a b) : c ∈ m ∨ c = (a, b) := by
  induction m with
  | nil => simp only [Memory.write] at h; split at h <;> simp_all
  | cons d m ih =>
    obtain ⟨a', b'⟩ := d
    simp only [Memory.write] at h
    split_ifs at h <;> simp_all <;> tauto

/-- A write keeps the canonical form. -/
theorem Memory.wf_write {m : Memory} {a : Nat} {b : Byte} (h : Memory.wf m) :
    Memory.wf (Memory.write m a b) := by
  induction m with
  | nil =>
    simp only [Memory.write]
    split_ifs with hb
    · exact Memory.wf_nil
    · exact Memory.wf_cons.2 ⟨by simp, hb, Memory.wf_nil⟩
  | cons d m ih =>
    obtain ⟨a', b'⟩ := d
    obtain ⟨h1, h3, h4⟩ := Memory.wf_cons.1 h
    simp only [Memory.write]
    split_ifs with hlt hb heq hb
    · exact h
    · refine Memory.wf_cons.2 ⟨?_, hb, h⟩
      intro x hx
      rcases List.mem_cons.1 hx with rfl | hx
      · exact hlt
      · exact hlt.trans (h1 x hx)
    · exact h4
    · subst heq
      exact Memory.wf_cons.2 ⟨h1, hb, h4⟩
    · refine Memory.wf_cons.2 ⟨?_, h3, ih h4⟩
      intro x hx
      rcases Memory.mem_write hx with hx | rfl
      · exact h1 x hx
      · simp only; omega

/-- Several writes keep the canonical form. -/
theorem Memory.wf_writes {m : Memory} (ws : List (Nat × Byte)) (h : Memory.wf m) :
    Memory.wf (Memory.writes m ws) := by
  induction ws generalizing m with
  | nil => exact h
  | cons w ws ih => exact ih (Memory.wf_write h)

/-- Writes within FB keep FB within its addresses. -/
theorem Memory.inside_writes {lenW : Nat} {m : Memory} {ws : List (Nat × Byte)}
    (h : Memory.inside lenW m) (hw : ∀ w ∈ ws, w.1 < 2 ^ lenW) :
    Memory.inside lenW (Memory.writes m ws) := by
  induction ws generalizing m with
  | nil => exact h
  | cons w ws ih =>
    refine ih (fun c hc => ?_) fun x hx => hw x (by simp [hx])
    rcases Memory.mem_write hc with hc | rfl
    · exact h c hc
    · exact hw w (by simp)

/-- The byte written is the byte read. -/
theorem Memory.read_write_same {m : Memory} (a : Nat) (b : Byte) (h : Memory.wf m) :
    Memory.read (Memory.write m a b) a = b := by
  induction m with
  | nil => simp only [Memory.write]; split_ifs with hb <;> simp [Memory.read, hb]
  | cons d m ih =>
    obtain ⟨a', b'⟩ := d
    obtain ⟨h1, -, h4⟩ := Memory.wf_cons.1 h
    simp only [Memory.write]
    split_ifs with hlt hb heq hb
    · rw [Memory.read_unlisted, hb]
      intro c hc
      rcases List.mem_cons.1 hc with rfl | hc
      · simp only; omega
      · have := h1 c hc; simp only at this; omega
    · simp [Memory.read]
    · rw [Memory.read_unlisted, hb]
      intro c hc
      have := h1 c hc; simp only at this; omega
    · simp [Memory.read]
    · rw [Memory.read_cons, if_neg (by simp only; omega)]
      exact ih h4

/-- Every other address reads as before. -/
theorem Memory.read_write_other {m : Memory} {a a' : Nat} (b : Byte) (hne : a' ≠ a) :
    Memory.read (Memory.write m a b) a' = Memory.read m a' := by
  induction m with
  | nil =>
    simp only [Memory.write]
    split_ifs
    · rfl
    · rw [Memory.read_cons, if_neg (by simp only; omega)]
  | cons d m ih =>
    obtain ⟨c, e⟩ := d
    simp only [Memory.write]
    split_ifs with hlt hb heq hb
    · rfl
    · rw [Memory.read_cons, if_neg (by simp only; omega)]
    · rw [Memory.read_cons, if_neg (by simp only; omega)]
    · rw [Memory.read_cons, if_neg (by simp only; omega), Memory.read_cons,
        if_neg (by simp only; omega)]
    · rw [Memory.read_cons, Memory.read_cons, ih]

/-- A read after a write. -/
theorem Memory.read_write {m : Memory} (a a' : Nat) (b : Byte) (h : Memory.wf m) :
    Memory.read (Memory.write m a b) a' = if a' = a then b else Memory.read m a' := by
  split_ifs with ha
  · subst ha; exact Memory.read_write_same _ _ h
  · exact Memory.read_write_other _ ha

/-- Writes that do not name an address leave it alone. -/
theorem Memory.read_writes_other {m : Memory} {ws : List (Nat × Byte)} {a : Nat}
    (h : ∀ w ∈ ws, w.1 ≠ a) : Memory.read (Memory.writes m ws) a = Memory.read m a := by
  induction ws generalizing m with
  | nil => rfl
  | cons w ws ih =>
    rw [show Memory.writes m (w :: ws) = Memory.writes (Memory.write m w.1 w.2) ws from rfl,
      ih fun x hx => h x (by simp [hx]), Memory.read_write_other]
    exact (h w (by simp)).symm

/-- What the frame source writes in a cycle is within FB. -/
theorem State.mem_incoming {s : State} {w : Nat × Byte} :
    w ∈ s.incoming ↔ w ∈ s.now.fbWrites ∧ w.1 < 2 ^ s.lenW := by
  simp [State.incoming]

/-- No write goes to the first `len` bytes exactly when each goes past them. -/
theorem writesFrame_eq_false {len : Nat} {ws : List (Nat × Byte)} :
    writesFrame len ws = false ↔ ∀ w ∈ ws, len ≤ w.1 := by
  simp [writesFrame]

/-- In a cycle in which the frame source keeps its duty to a frame of `len` bytes, none of its writes
goes to the frame. -/
theorem State.writesFrame_incoming {s : State} {len : Nat} (h : breaksDuty len s.now = false) :
    writesFrame len s.incoming = false := by
  simp only [breaksDuty, Bool.or_eq_false_iff] at h
  exact writesFrame_eq_false.2 fun w hw =>
    writesFrame_eq_false.1 h.2 w (State.mem_incoming.1 hw).1

/-- Writes that leave the first `len` bytes alone leave each of them as it was. -/
theorem Memory.read_writes_outside {m : Memory} {len : Nat} {ws : List (Nat × Byte)} {a : Nat}
    (h : writesFrame len ws = false) (ha : a < len) :
    Memory.read (Memory.writes m ws) a = Memory.read m a :=
  Memory.read_writes_other fun w hw => by have := writesFrame_eq_false.1 h w hw; omega

/-- A loaded byte string stands in FB from its base address on. -/
theorem Memory.read_loadWrites {bytes : List Byte} {base : Nat} {m : Memory} (h : Memory.wf m)
    (a : Nat) :
    Memory.read (Memory.writes m (loadWrites base bytes)) a =
      if base ≤ a then (bytes[a - base]?).getD (Memory.read m a) else Memory.read m a := by
  induction bytes generalizing base m with
  | nil => simp [loadWrites, Memory.writes]
  | cons b bs ih =>
    have hw := Memory.wf_write (a := base) (b := b) h
    simp only [loadWrites, Memory.writes]
    rw [ih hw, Memory.read_write _ _ _ h]
    by_cases h1 : a = base
    · subst h1
      simp
    · by_cases h2 : base ≤ a
      · rw [if_pos (by omega : base + 1 ≤ a), if_pos h2, if_neg h1]
        have h3 : a - base = (a - (base + 1)) + 1 := by omega
        rw [h3, List.getElem?_cons_succ]
      · rw [if_neg (by omega), if_neg h2, if_neg h1]

/-- The addresses of a loaded byte string. -/
theorem loadWrites_lt {bytes : List Byte} {base : Nat} {w : Nat × Byte}
    (h : w ∈ loadWrites base bytes) : w.1 < base + bytes.length := by
  induction bytes generalizing base with
  | nil => cases h
  | cons b bs ih =>
    rcases List.mem_cons.1 h with rfl | h
    · simp
    · have := ih h; simp only [List.length_cons]; omega

/-- Two canonical buffers that read alike at every address are the same list. -/
theorem Memory.eq_of_read_eq {m m' : Memory} (h : Memory.wf m) (h' : Memory.wf m')
    (heq : ∀ a, Memory.read m a = Memory.read m' a) : m = m' := by
  induction m generalizing m' with
  | nil =>
    cases m' with
    | nil => rfl
    | cons d m' =>
      obtain ⟨-, h3, -⟩ := Memory.wf_cons.1 h'
      have := heq d.1
      simp only [Memory.read_nil, Memory.read_cons, if_true] at this
      exact absurd this.symm h3
  | cons c m ih =>
    obtain ⟨h1, h3, h4⟩ := Memory.wf_cons.1 h
    cases m' with
    | nil =>
      have := heq c.1
      simp only [Memory.read_nil, Memory.read_cons, if_true] at this
      exact absurd this h3
    | cons d m' =>
      obtain ⟨g1, g3, g4⟩ := Memory.wf_cons.1 h'
      have hcd : c.1 = d.1 := by
        rcases Nat.lt_trichotomy c.1 d.1 with hlt | he | hlt
        · have := heq c.1
          rw [Memory.read_cons, if_pos rfl, Memory.read_unlisted] at this
          · exact absurd this h3
          · intro x hx
            rcases List.mem_cons.1 hx with rfl | hx
            · omega
            · have := g1 x hx; omega
        · exact he
        · have := heq d.1
          rw [Memory.read_cons (c := d), if_pos rfl, Memory.read_unlisted] at this
          · exact absurd this.symm g3
          · intro x hx
            rcases List.mem_cons.1 hx with rfl | hx
            · omega
            · have := h1 x hx; omega
      have hb : c.2 = d.2 := by
        have := heq c.1
        rwa [Memory.read_cons, if_pos rfl, Memory.read_cons, if_pos hcd.symm] at this
      have hm : m = m' := by
        apply ih h4 g4
        intro a
        by_cases ha : a = c.1
        · subst ha
          rw [Memory.read_unlisted fun x hx => (h1 x hx).ne',
            Memory.read_unlisted fun x hx => by have := g1 x hx; omega]
        · have := heq a
          rwa [Memory.read_cons, if_neg (Ne.symm ha), Memory.read_cons,
            if_neg (by omega)] at this
      obtain ⟨ca, cb⟩ := c
      obtain ⟨da, db⟩ := d
      simp_all

end Sys2Proof.Machine
end

