-- ==== Sys2Proof/Laws/Handoff.lean ====
section
/-! SUPPORT. What a payload is: how many bytes, each of them, and that it stays as it is while the frame
source leaves its frame alone. -/

namespace Sys2Proof.Machine

@[simp] theorem Loan.note_offset (ws : List (Nat × Byte)) (l : Loan) :
    (l.note ws).offset = l.offset := rfl
@[simp] theorem Loan.note_length (ws : List (Nat × Byte)) (l : Loan) :
    (l.note ws).length = l.length := rfl
@[simp] theorem Loan.note_intact (ws : List (Nat × Byte)) (l : Loan) :
    (l.note ws).intact = (l.intact && !writesFrame (l.offset + l.length) ws) := rfl

@[simp] theorem payloadBytes_length (fb : Memory) (draw offset length : Nat) (intact : Bool) :
    (payloadBytes fb draw offset length intact).length = length := by
  simp [payloadBytes]

/-- One byte of a payload. -/
theorem payloadBytes_get (fb : Memory) (draw offset : Nat) {length j : Nat} (intact : Bool)
    (h : j < length) :
    (payloadBytes fb draw offset length intact)[j]? =
      some (if intact = true then Memory.read fb (offset + j)
        else Config.freePayload (draw + j) (offset + j)) := by
  simp [payloadBytes, h]

/-- A payload stands on the response port. -/
theorem State.handoff_some {s : State} (draw : Nat) (hv : s.rspValid = true)
    (hs : s.rspStatus = Status.ok.code) :
    s.handoff draw = some (payloadBytes s.fb draw s.rspOffset s.rspLength s.payloadIntact) :=
  if_pos ⟨hv, hs⟩

/-- No payload without a valid response, and none without the status OK. -/
theorem State.handoff_none {s : State} (draw : Nat)
    (h : s.rspValid = false ∨ s.rspStatus ≠ Status.ok.code) : s.handoff draw = none := by
  apply if_neg
  rintro ⟨hv, hs⟩
  rcases h with h | h
  · simp [h] at hv
  · exact h hs

/-- An intact payload reads alike, whoever reads it, in two buffers that agree on its bytes. -/
theorem payloadBytes_congr {fb fb' : Memory} {offset length : Nat} (draw draw' : Nat)
    (h : ∀ a, a < offset + length → Memory.read fb a = Memory.read fb' a) :
    payloadBytes fb draw offset length true = payloadBytes fb' draw' offset length true := by
  simp only [payloadBytes, if_true]
  exact List.map_congr_left fun j hj => h _ (by have := List.mem_range.1 hj; omega)

end Sys2Proof.Machine
end

