-- ==== Sys2Proof/Laws/PerInstr.lean ====
section
/-! SUPPORT. A law for each instruction: the encoder's word meets the row of the table. -/

namespace Sys2Proof.Laws

/-- The table's row of an outcome; the request is no row of the classification table (rule R68). -/
def rowOf : Instr → Option Row
  | .extract _ => none
  | .rejEthTruncated => some rowEthTruncated
  | .rejBadEthertype _ => some rowBadEthertype
  | .rejIpv4Truncated => some rowIpv4Truncated
  | .rejBadVersion _ _ => some rowBadVersion
  | .rejBadIhl _ => some rowBadIhl
  | .rejIpv4OptionsTruncated _ => some rowIpv4OptionsTruncated
  | .rejNotUdp _ _ => some rowNotUdp
  | .rejUdpHdrTruncated _ => some rowUdpHdrTruncated
  | .rejEmptyPayload _ => some rowEmptyPayload
  | .accept _ => some rowAccept

/-- The key that the encoder writes meets the row's match under its mask, and the row reads the
instruction back from it; the request is one word of two bytes. -/
def KeyFits.Statement (i : Instr) : Prop :=
  match rowOf i with
  | none => ∀ len, (encode len i).length = 2
  | some r =>
    ∃ b12 b13 b14 b23, encodeKey i = [b12, b13, b14, b23] ∧
      makeKey b12 b13 b14 b23 &&& r.maskBits = r.matchBits ∧
      r.outcome (makeKey b12 b13 b14 b23) = i

theorem KeyFits.extract (reqLen : Nat) : KeyFits.Statement (.extract reqLen) := fun _ => rfl

theorem KeyFits.rejEthTruncated : KeyFits.Statement .rejEthTruncated :=
  ⟨_, _, _, _, rfl, by decide, rfl⟩

theorem KeyFits.rejBadEthertype (et : BitVec 16) : KeyFits.Statement (.rejBadEthertype et) := by
  refine ⟨_, _, _, _, rfl, BitVec.and_zero, ?_⟩
  simp only [rowBadEthertype, keyEthType_makeKey, Instr.rejBadEthertype.injEq]
  apply BitVec.eq_of_getLsbD_eq
  intro i hi
  simp only [BitVec.getLsbD_append, BitVec.getLsbD_extractLsb']
  by_cases h : i < 8
  · simp [h]
  · simp [h, show 8 + (i - 8) = i by omega, show i - 8 < 8 by omega]

theorem KeyFits.rejIpv4Truncated : KeyFits.Statement .rejIpv4Truncated :=
  ⟨_, _, _, _, rfl, by decide, rfl⟩

theorem KeyFits.rejBadVersion (version ihl : BitVec 4) :
    KeyFits.Statement (.rejBadVersion version ihl) := by
  refine ⟨_, _, _, _, rfl, (masked_ethType _).2 (by simp), ?_⟩
  simp [rowBadVersion, version_ihl_of_append]

theorem KeyFits.rejBadIhl (ihl : BitVec 4) : KeyFits.Statement (.rejBadIhl ihl) := by
  refine ⟨_, _, _, _, rfl, (masked_version _).2 (by simp [version_ihl_of_append]), ?_⟩
  simp [rowBadIhl, version_ihl_of_append]

theorem KeyFits.rejIpv4OptionsTruncated (ihl : BitVec 4) :
    KeyFits.Statement (.rejIpv4OptionsTruncated ihl) := by
  refine ⟨_, _, _, _, rfl, (masked_version _).2 (by simp [version_ihl_of_append]), ?_⟩
  simp [rowIpv4OptionsTruncated, version_ihl_of_append]

theorem KeyFits.rejNotUdp (ihl : BitVec 4) (proto : Byte) :
    KeyFits.Statement (.rejNotUdp ihl proto) := by
  refine ⟨_, _, _, _, rfl, (masked_version _).2 (by simp [version_ihl_of_append]), ?_⟩
  simp [rowNotUdp, version_ihl_of_append]

theorem KeyFits.rejUdpHdrTruncated (ihl : BitVec 4) :
    KeyFits.Statement (.rejUdpHdrTruncated ihl) := by
  refine ⟨_, _, _, _, rfl, (masked_proto _).2 (by simp [version_ihl_of_append]), ?_⟩
  simp [rowUdpHdrTruncated, version_ihl_of_append]

theorem KeyFits.rejEmptyPayload (ihl : BitVec 4) : KeyFits.Statement (.rejEmptyPayload ihl) := by
  refine ⟨_, _, _, _, rfl, (masked_proto _).2 (by simp [version_ihl_of_append]), ?_⟩
  simp [rowEmptyPayload, version_ihl_of_append]

theorem KeyFits.accept (ihl : BitVec 4) : KeyFits.Statement (.accept ihl) := by
  refine ⟨_, _, _, _, rfl, (masked_proto _).2 (by simp [version_ihl_of_append]), ?_⟩
  simp [rowAccept, version_ihl_of_append]

end Sys2Proof.Laws
end

