-- ==== Sys2Proof/Laws/Step.lean ====
section
/-! SUPPORT. What one step can do, said once (`step_cases`), and the small laws of the parts of a cycle
that it names: noting writes, sampling, and the realisation's move. -/

namespace Sys2Proof.Machine

/-! ### Noting writes -/

/-- Noting writes either disturbs the running transaction or changes nothing. -/
theorem State.noteDuty_cases (c : PortIn) (s : State) :
    (s.phase = .busy ∧ breaksDuty s.lenR c = true ∧ s.noteDuty c = s.disturb) ∨
      (¬ (s.phase = .busy ∧ breaksDuty s.lenR c = true) ∧ s.noteDuty c = s) := by
  unfold State.noteDuty
  split
  · rename_i h; exact .inl ⟨h.1, h.2, rfl⟩
  · rename_i h; exact .inr ⟨h, rfl⟩

/-- Noting writes keeps every field that it is not about. -/
theorem State.noteDuty_keeps (c : PortIn) (s : State) :
    (s.noteDuty c).phase = s.phase ∧ (s.noteDuty c).lenR = s.lenR ∧
    (s.noteDuty c).ethType = s.ethType ∧ (s.noteDuty c).vihl = s.vihl ∧
    (s.noteDuty c).proto = s.proto ∧ (s.noteDuty c).resStatus = s.resStatus ∧
    (s.noteDuty c).resDetail = s.resDetail ∧ (s.noteDuty c).resOffset = s.resOffset ∧
    (s.noteDuty c).resLength = s.resLength ∧ (s.noteDuty c).fb = s.fb ∧
    (s.noteDuty c).rdPending = s.rdPending ∧ (s.noteDuty c).inputs = s.inputs ∧
    (s.noteDuty c).sched = s.sched ∧ (s.noteDuty c).log = s.log ∧
    (s.noteDuty c).rdLat = s.rdLat ∧ (s.noteDuty c).lenW = s.lenW ∧
    (s.noteDuty c).loans = s.loans ∧ (s.noteDuty c).payloadIntact = s.payloadIntact ∧
    (s.noteDuty c).rdData.map (·.1) = s.rdData.map (·.1) := by
  rcases s.noteDuty_cases c with ⟨-, -, h⟩ | ⟨-, h⟩ <;> rw [h] <;>
    simp [Function.comp_def]

/-- Outside BUSY, and where no write goes to the frame, noting writes changes nothing. -/
theorem State.noteDuty_eq_self {c : PortIn} {s : State}
    (h : s.phase ≠ .busy ∨ breaksDuty s.lenR c = false) : s.noteDuty c = s := by
  unfold State.noteDuty
  apply if_neg
  rintro ⟨h1, h2⟩
  rcases h with h | h
  · exact h h1
  · simp [h] at h2

/-! ### The cycle of BUSY -/

/-- The cycle of BUSY keeps every field but FB, the inputs, the read port and the draws. -/
theorem State.busyCycle_keeps (s : State) :
    s.busyCycle.phase = s.phase ∧ s.busyCycle.lenR = s.lenR ∧
    s.busyCycle.ethType = s.ethType ∧ s.busyCycle.vihl = s.vihl ∧
    s.busyCycle.proto = s.proto ∧ s.busyCycle.resStatus = s.resStatus ∧
    s.busyCycle.resDetail = s.resDetail ∧ s.busyCycle.resOffset = s.resOffset ∧
    s.busyCycle.resLength = s.resLength ∧
    s.busyCycle.fb = Memory.writes s.fb s.incoming ∧
    s.busyCycle.inputs = s.inputs.tail ∧ s.busyCycle.sched = s.sched ∧
    s.busyCycle.log = s.log ∧ s.busyCycle.rdLat = s.rdLat ∧ s.busyCycle.lenW = s.lenW ∧
    s.busyCycle.loans = s.loans.map (Loan.note s.incoming) := by
  have h := State.noteDuty_keeps s.now s.endCycle
  simp only [State.busyCycle, State.sample_phase, State.sample_lenR, State.sample_ethType,
    State.sample_vihl, State.sample_proto, State.sample_resStatus, State.sample_resDetail,
    State.sample_resOffset, State.sample_resLength, State.sample_fb, State.sample_inputs,
    State.sample_sched, State.sample_log, State.sample_rdLat, State.sample_lenW,
    State.sample_loans, h,
    State.endCycle_phase, State.endCycle_lenR, State.endCycle_ethType, State.endCycle_vihl,
    State.endCycle_proto, State.endCycle_resStatus, State.endCycle_resDetail,
    State.endCycle_resOffset, State.endCycle_resLength, State.endCycle_fb, State.endCycle_inputs,
    State.endCycle_sched, State.endCycle_log, State.endCycle_rdLat, State.endCycle_lenW,
    State.endCycle_loans, and_self]

/-- A filtered list and what the filter leaves out are the list again, in some order. -/
theorem filter_append_perm {α : Type} (p q : α → Bool) (h : ∀ x, q x = !p x) (l : List α) :
    (l.filter p ++ l.filter q).Perm l := by
  have : q = fun x => !p x := funext h
  rw [this]
  exact List.filter_append_perm p l

/-- Sampling moves reads from outstanding to answered and forgets none. -/
theorem State.sample_issued (s : State) : s.sample.issued.Perm s.issued := by
  simp only [State.issued, State.sample_rdData, State.sample_rdPending, List.map_append,
    List.map_map, Function.comp_def, State.arriving, List.append_assoc]
  apply List.Perm.append_left
  rw [← List.map_append]
  apply List.Perm.map
  apply filter_append_perm
  intro p
  by_cases h : p.2 ≤ 1
  · simp [h]
  · simp [h]; omega

/-- The cycle of BUSY changes nothing of which reads have been issued. -/
theorem State.busyCycle_issued (s : State) : s.busyCycle.issued.Perm s.issued := by
  refine (State.sample_issued _).trans ?_
  have h := State.noteDuty_keeps s.now s.endCycle
  simp only [State.issued, h]
  exact List.Perm.refl _

/-! ### The realisation's move -/

/-- A read that the plan issues is one that the block may issue. -/
theorem State.mayIssue_of_plan {s : State} {a : Nat} (h : s.plan = .issue a) :
    s.mayIssue a = true := by
  unfold State.plan State.ownMove at h
  split at h
  · split at h
    · split at h <;> simp_all
    · split at h <;> simp_all
  · split at h <;> simp_all
  · simp_all
  · split at h <;> simp_all

/-- What `mayIssue` says. -/
theorem State.mayIssue_iff {s : State} {a : Nat} :
    s.mayIssue a = true ↔ a ∈ keyAddrs ∧ a < s.lenR ∧ a ∉ s.issued := by
  simp [State.mayIssue, and_assoc]

/-- A finish that the plan makes is one that the block may make. -/
theorem State.mayFinish_of_plan {s : State} (h : s.plan = .finish) : s.mayFinish = true := by
  unfold State.plan State.ownMove at h
  split at h
  · split at h
    · split at h <;> simp_all
    · split at h <;> simp_all [State.mayFinish]
  · split at h <;> simp_all
  · simp_all
  · split at h <;> simp_all

/-- What `mayFinish` says. -/
theorem State.mayFinish_iff {s : State} :
    s.mayFinish = true ↔ s.needs = none ∧ s.rdPending = [] := by
  simp [State.mayFinish]

/-! ### The row that the table selects always takes its effect -/

/-- In BUSY the selected row concludes. -/
theorem exec_decodeKey_concludes {s : State} (hb : s.phase = .busy) (k : BitVec 32) :
    ∃ t, exec (decodeKey s.lenR k) s = .next t ∧ Concludes s t := by
  have hne : Phase.busy ≠ Phase.idle := by decide
  suffices h : exec (decodeKey s.lenR k) s ≠ .next s by
    obtain ⟨t, ht⟩ := exec_answers (decodeKey s.lenR k) s
    rcases exec_cases ht with rfl | ⟨hi, -⟩ | ⟨-, -, hc⟩
    · exact absurd ht h
    · rw [hb] at hi; exact absurd hi hne
    · exact ⟨t, ht, hc⟩
  have key : ∀ (u : State) (r : Response), u.concluded r ≠ s := by
    intro u r h
    have := congrArg State.phase h
    rw [hb] at this
    exact absurd this (by simp)
  have fin : ∀ (c : Bool) (u : State) (r : Response), c = true →
      s.concludeIf c (u.concluded r) ≠ .next s := by
    intro c u r hc h
    rw [State.concludeIf_pos hb hc] at h
    exact key u r (by injection h)
  rw [decodeKey_chain]
  split_ifs with h1 h2 h3 h4 h5 h6 h7 h8 h9
  · exact fin _ _ _ (by simp [h1])
  · exact fin _ _ _ (by
      simp only [Bool.and_eq_true, bne_iff_ne, decide_eq_true_eq, ethHdrLen]
      exact ⟨h2, by omega⟩)
  · exact fin _ _ _ (by simp only [decide_eq_true_eq, ethHdrLen, ipv4MinHdrLen]; omega)
  · exact fin _ _ _ (by
      simp only [Bool.and_eq_true, bne_iff_ne, decide_eq_true_eq, ethHdrLen, ipv4MinHdrLen]
      exact ⟨h4, by omega⟩)
  · exact fin _ _ _ (by
      simp only [decide_eq_true_eq, ethHdrLen, ipv4MinHdrLen, minIhl]; omega)
  · exact fin _ _ _ (by
      simp only [decide_eq_true_eq, ethHdrLen, ipv4MinHdrLen, minIhl, ipEnd, ihlUnit]; omega)
  · exact fin _ _ _ (by
      simp only [Bool.and_eq_true, bne_iff_ne, decide_eq_true_eq, ethHdrLen, minIhl, ipEnd,
        ihlUnit]
      exact ⟨h7, by omega, by omega⟩)
  · exact fin _ _ _ (by
      simp only [decide_eq_true_eq, ethHdrLen, minIhl, ipEnd, ihlUnit, payloadOffset, udpHdrLen]
      omega)
  · exact fin _ _ _ (by
      simp only [decide_eq_true_eq, ethHdrLen, minIhl, ipEnd, ihlUnit, payloadOffset, udpHdrLen]
      omega)
  · exact fin _ _ _ (by
      simp only [decide_eq_true_eq, ethHdrLen, minIhl, ipEnd, ihlUnit, payloadOffset, udpHdrLen]
      omega)

/-! ### One step -/

/-- The request that the word on `req_len` decodes to latches what the word carries. -/
theorem accepted_ofNat (s : State) (n : Nat) :
    s.endCycle.accepted (BitVec.ofNat s.lenW n).toNat = s.endCycle.accepted n := by
  simp [State.accepted]

/-- Everything that one step can do when it answers a next state. -/
inductive StepTo (s t : State) : Prop where
  /-- The reset edge. -/
  | reset (h : s.now.rst = true) (ht : t = s.endCycle.resetEdge)
  /-- IDLE with no request. -/
  | idle (h : s.now.rst = false) (hp : s.phase = .idle) (hq : s.now.reqValid = false)
      (ht : t = s.endCycle)
  /-- The request handshake. -/
  | accept (h : s.now.rst = false) (hp : s.phase = .idle) (hq : s.now.reqValid = true)
      (ht : t = (s.endCycle.accepted s.now.reqLen).noteDuty s.now)
  /-- A cycle of BUSY that issues a read. -/
  | read (h : s.now.rst = false) (hp : s.phase = .busy) (a : Nat)
      (hm : s.busyCycle.plan = .issue a) (ht : t = s.busyCycle.popMove.issueRead a)
  /-- A cycle of BUSY that does nothing at its edge. -/
  | wait (h : s.now.rst = false) (hp : s.phase = .busy) (hm : s.busyCycle.plan = .wait)
      (ht : t = s.busyCycle.popMove)
  /-- The end of BUSY. -/
  | finish (h : s.now.rst = false) (hp : s.phase = .busy) (hm : s.busyCycle.plan = .finish)
      (he : exec (decodeKey s.busyCycle.lenR (sampledKey s.busyCycle.rdData))
        s.busyCycle.popMove = .next t)
      (hc : Concludes s.busyCycle.popMove t)
  /-- RESP with a consumer that does not take the response. -/
  | hold (h : s.now.rst = false) (hp : s.phase = .resp) (hr : s.now.rspReady = false)
      (ht : t = s.endCycle)
  /-- The response handshake. -/
  | deliver (h : s.now.rst = false) (hp : s.phase = .resp) (hr : s.now.rspReady = true)
      (hl : legalCodes s.resStatus s.resDetail = true) (ht : t = s.endCycle.delivered)

/-- The request handshake in a step. -/
theorem step_request {s : State} (h : s.now.rst = false) (hp : s.phase = .idle)
    (hq : s.now.reqValid = true) :
    step s = .next ((s.endCycle.accepted s.now.reqLen).noteDuty s.now) := by
  have he : s.edge = .run (decodeRequest (BitVec.ofNat s.lenW s.now.reqLen)) s.endCycle := by
    simp [State.edge, h, hp, hq]
  have hi : s.endCycle.phase = .idle := hp
  simp only [step, he, decodeRequest, exec, execExtract, hi, if_true, afterRun, accepted_ofNat]

/-- The end of BUSY in a step: the selected row's next state is the step's. -/
theorem step_finish {s : State} (h : s.now.rst = false) (hp : s.phase = .busy)
    (hm : s.busyCycle.plan = .finish) :
    ∃ t, step s = .next t ∧
      exec (decodeKey s.busyCycle.lenR (sampledKey s.busyCycle.rdData))
        s.busyCycle.popMove = .next t ∧ Concludes s.busyCycle.popMove t := by
  have hb : s.busyCycle.popMove.phase = .busy := by
    rw [State.popMove_phase, s.busyCycle_keeps.1, hp]
  obtain ⟨t, ht, hc⟩ := exec_decodeKey_concludes hb (sampledKey s.busyCycle.rdData)
  refine ⟨t, ?_, ht, hc⟩
  rw [State.popMove_lenR] at ht
  have hedge : s.edge = .run (decodeKey s.busyCycle.lenR (sampledKey s.busyCycle.rdData))
      s.busyCycle.popMove := by
    simp [State.edge, h, hp, busyEdge, hm]
  simp only [step, hedge, ht, afterRun]
  rw [State.noteDuty_eq_self]
  left
  obtain ⟨et, v, p, r, -, rfl⟩ := hc
  simp

/-- The one case analysis of the step. -/
theorem step_cases {s t : State} (h : step s = .next t) : StepTo s t := by
  cases hr : s.now.rst with
  | true =>
    refine .reset hr ?_
    have he : s.edge = .rest s.endCycle.resetEdge := by simp [State.edge, hr]
    simp only [step, he] at h
    injection h with h; exact h.symm
  | false =>
    cases hp : s.phase with
    | idle =>
      cases hq : s.now.reqValid with
      | false =>
        have he : s.edge = .rest s.endCycle := by simp [State.edge, hr, hp, hq]
        simp only [step, he] at h
        injection h with h
        exact .idle hr hp hq h.symm
      | true =>
        rw [step_request hr hp hq] at h
        injection h with h
        exact .accept hr hp hq h.symm
    | busy =>
      cases hm : s.busyCycle.plan with
      | issue a =>
        have he : s.edge = .rest (s.busyCycle.popMove.issueRead a) := by
          simp [State.edge, hr, hp, busyEdge, hm]
        simp only [step, he] at h
        injection h with h
        exact .read hr hp a hm h.symm
      | wait =>
        have he : s.edge = .rest s.busyCycle.popMove := by
          simp [State.edge, hr, hp, busyEdge, hm]
        simp only [step, he] at h
        injection h with h
        exact .wait hr hp hm h.symm
      | finish =>
        obtain ⟨u, hu, he, hc⟩ := step_finish hr hp hm
        rw [hu] at h
        injection h with h
        subst h
        exact .finish hr hp hm he hc
    | resp =>
      cases hq : s.now.rspReady with
      | false =>
        have he : s.edge = .rest s.endCycle := by simp [State.edge, hr, hp, hq]
        simp only [step, he] at h
        injection h with h
        exact .hold hr hp hq h.symm
      | true =>
        have he : s.edge = deliverEdge s.endCycle := by simp [State.edge, hr, hp, hq]
        cases hl : legalCodes s.resStatus s.resDetail with
        | true =>
          simp only [step, he, deliverEdge, State.endCycle_resStatus, State.endCycle_resDetail, hl,
            if_true] at h
          injection h with h
          exact .deliver hr hp hq hl h.symm
        | false =>
          simp [step, he, deliverEdge, hl] at h

end Sys2Proof.Machine
end

