-- ==== Sys2Proof/Laws/Port.lean ====
section
/-! SUPPORT. The read port over a cycle of BUSY: what an undisturbed cycle leaves, that the cycle keeps
the read port's part of the invariant, what is sampled, and why a wait with no schedule has a read
outstanding. -/

namespace Sys2Proof.Machine

/-- A cycle that leaves the transaction undisturbed found it so, and no write went to the frame. -/
theorem State.busyCycle_undisturbed {s : State} (hp : s.phase = .busy)
    (hd : s.busyCycle.disturbed = false) :
    s.disturbed = false ∧ breaksDuty s.lenR s.now = false ∧
      s.endCycle.noteDuty s.now = s.endCycle := by
  rcases s.endCycle.noteDuty_cases s.now with ⟨-, -, h⟩ | ⟨h1, h⟩
  · simp [State.busyCycle, h] at hd
  · refine ⟨by simpa [State.busyCycle, h] using hd, ?_, h⟩
    simpa [hp] using h1

/-- A cycle with no write to the frame leaves an undisturbed transaction so. -/
theorem State.busyCycle_disturbed_eq {s : State} (hw : breaksDuty s.lenR s.now = false) :
    s.busyCycle.disturbed = s.disturbed := by
  have hn : s.endCycle.noteDuty s.now = s.endCycle :=
    State.noteDuty_eq_self (.inr hw)
  simp [State.busyCycle, hn]

/-- What is outstanding after the cycle: what was further than one cycle away, one cycle nearer. -/
theorem State.busyCycle_rdPending (s : State) :
    s.busyCycle.rdPending =
      (s.rdPending.filter (fun p => decide (1 < p.2))).map (fun p => (p.1, p.2 - 1)) := by
  have h := s.endCycle.noteDuty_keeps s.now
  simp only [State.busyCycle, State.sample_rdPending, h, State.endCycle_rdPending]

/-- The cycle of BUSY keeps the read port's part of the invariant. -/
theorem State.busyCycle_readPortOk {s : State} (hp : s.phase = .busy) (h : readPortOk s) :
    readPortOk s.busyCycle := by
  obtain ⟨-, hnd, hmem, hdue, hdata⟩ := h
  have kb := s.busyCycle_keeps
  have kn := s.endCycle.noteDuty_keeps s.now
  refine ⟨fun h => absurd (kb.1.trans hp) h, s.busyCycle_issued.nodup_iff.2 hnd, ?_, ?_, ?_⟩
  · intro a ha
    rw [kb.2.1]
    exact hmem a (s.busyCycle_issued.mem_iff.1 ha)
  · intro p hm
    rw [State.busyCycle_rdPending, List.mem_map] at hm
    obtain ⟨q, hq, rfl⟩ := hm
    obtain ⟨hq, h1⟩ := List.mem_filter.1 hq
    have := hdue q hq
    simp only [decide_eq_true_eq] at h1
    rw [kb.2.2.2.2.2.2.2.2.2.2.2.2.2.1]
    simp only
    omega
  · intro hd p hm
    obtain ⟨d1, d2, d3⟩ := State.busyCycle_undisturbed hp hd
    have hout : ∀ a ∈ s.issued, memRead s.busyCycle a = memRead s a := by
      intro a ha
      unfold memRead
      rw [kb.2.2.2.2.2.2.2.2.2.1]
      exact Memory.read_writes_outside (State.writesFrame_incoming d2) (hmem a ha).2
    simp only [State.busyCycle, d3, State.sample_rdData, List.mem_append, List.mem_map] at hm
    rcases hm with hm | ⟨a, -, rfl⟩
    · rw [hout p.1 (by
        simp only [State.issued, List.mem_append, List.mem_map]; exact .inl ⟨p, hm, rfl⟩)]
      exact hdata d1 p hm
    · show s.endCycle.answer a = memRead s.busyCycle a
      unfold State.answer
      rw [if_neg (by simp [d1])]
      unfold memRead
      rw [kb.2.2.2.2.2.2.2.2.2.1]
      rfl

/-- What the read port has answered for an address is among its answers. -/
theorem sampled_mem {d : List (Nat × Byte)} {a : Nat} {b : Byte} (h : sampled d a = some b) :
    (a, b) ∈ d := by
  induction d with
  | nil => cases h
  | cons p d ih =>
    obtain ⟨x, y⟩ := p
    unfold sampled at h ih
    rw [List.lookup_cons] at h
    split at h
    · rename_i hx
      simp only [beq_iff_eq] at hx
      subst hx
      injection h with h
      subst h
      simp
    · exact List.mem_cons_of_mem _ (ih h)

/-- The answers for addresses within a frame. -/
theorem sampled_filter (len : Nat) (d : List (Nat × Byte)) (a : Nat) :
    sampled (d.filter (fun p => decide (p.1 < len))) a = if a < len then sampled d a else none := by
  induction d with
  | nil => simp [sampled]
  | cons p d ih =>
    obtain ⟨x, y⟩ := p
    simp only [sampled, List.filter] at ih ⊢
    by_cases h : x < len
    · simp only [h, decide_true, List.lookup]
      by_cases ha : a = x
      · subst ha; simp [h]
      · have : (a == x) = false := by simpa using ha
        simp only [this]; exact ih
    · simp only [h, decide_false, List.lookup]
      by_cases ha : a = x
      · subst ha; rw [ih]; simp [h]
      · have : (a == x) = false := by simpa using ha
        simp only [this]; exact ih

/-- A read goes out in BUSY only, without reset, as the planned move. -/
theorem State.readRequest_some {s : State} {a : Nat} (h : s.readRequest = some a) :
    s.phase = .busy ∧ s.now.rst = false ∧ s.busyCycle.plan = .issue a := by
  unfold State.readRequest at h
  split at h
  · rename_i hc
    split at h
    · rename_i b hb
      injection h with h
      exact ⟨hc.1, hc.2, h ▸ hb⟩
    all_goals cases h
  · cases h

/-- A realisation that follows no schedule reads only the byte that it needs next. -/
theorem State.needs_of_readRequest {s : State} {a : Nat} (hs : s.sched = [])
    (h : s.readRequest = some a) : s.busyCycle.needs = some a := by
  have hp := (State.readRequest_some h).2.2
  have kb := s.busyCycle_keeps
  unfold State.plan at hp
  rw [show s.busyCycle.sched = [] by simp [kb, hs]] at hp
  simp only [State.ownMove] at hp
  split at hp
  · split at hp
    · injection hp with hp; subst hp; assumption
    · cases hp
  · split at hp <;> cases hp

/-- A realisation that follows no schedule waits only for a read that is outstanding. -/
theorem State.rdPending_of_wait {u : State} (hs : u.sched = []) (hw : u.plan = .wait) :
    u.rdPending ≠ [] := by
  unfold State.plan at hw
  rw [hs] at hw
  simp only [State.ownMove] at hw
  split at hw
  · rename_i a ha
    split at hw
    · cases hw
    · rename_i hm
      rw [State.mayIssue_iff] at hm
      obtain ⟨h1, h2, h3⟩ := nextRead_some ha
      have hi : a ∈ u.issued := by
        by_contra hc
        exact hm ⟨h1, h2, hc⟩
      simp only [State.issued, List.mem_append] at hi
      rcases hi with hd | hd
      · exfalso
        rw [List.mem_map] at hd
        obtain ⟨p, hp, rfl⟩ := hd
        unfold sampled at h3
        rw [List.lookup_eq_none_iff] at h3
        exact absurd (h3 p hp) (by simp)
      · intro h; rw [h] at hd; simp at hd
  · split at hw
    · cases hw
    · rename_i h; simpa using h

/-- A byte that a read of the transaction gets is on the port. -/
theorem State.mem_fbRdData {s : State} {p : Nat × Byte} (stray : List (Nat × Byte))
    (h : p ∈ s.dueData) : p ∈ s.fbRdData stray := by
  unfold State.fbRdData
  rw [if_neg (List.ne_nil_of_mem h)]
  exact h

/-- Under reset no byte on the port answers a read that still counts. -/
theorem State.fbRdData_reset {s : State} (stray : List (Nat × Byte)) (h : s.now.rst = true) :
    s.fbRdData stray = stray := by
  simp [State.fbRdData, State.dueData, h]

end Sys2Proof.Machine
end

