-- ==== Sys2Proof/Laws/Run.lean ====
section
/-! SUPPORT. Runs one step at a time, and the bound on BUSY in its parts. -/

namespace Sys2Proof.Machine

/-- A run after a step that answers a next state. -/
theorem run_succ {s t : State} (k : Nat) (h : step s = .next t) :
    Sys2Proof.core.run (k + 1) s = Sys2Proof.core.run k t := by
  have h : Sys2Proof.core.step s = .next t := h
  simp only [Host.Core.run, h]

/-- A run after a step that stops. -/
theorem run_stops {s : State} (k : Nat) (h : ∀ t, step s ≠ .next t) (t : State) :
    Sys2Proof.core.run (k + 1) s ≠ .next t := by
  cases hs : step s with
  | next u => exact absurd hs (h u)
  | fault f =>
    have hs : Sys2Proof.core.step s = .fault f := hs
    simp [Host.Core.run, hs]
  | refused r =>
    have hs : Sys2Proof.core.step s = .refused r := hs
    simp [Host.Core.run, hs]

/-- The inputs of one cycle are used up in it. -/
theorem step_inputs {s t : State} (h : step s = .next t) : t.inputs = s.inputs.tail := by
  have kb := s.busyCycle_keeps
  cases step_cases h with
  | reset h ht => simp [ht]
  | idle h hp hq ht => simp [ht]
  | accept h hp hq ht => simp [ht, State.noteDuty_keeps]
  | read h hp a hm ht => simp [ht, kb]
  | wait h hp hm ht => simp [ht, kb]
  | finish h hp hm he hc => obtain ⟨_, _, _, _, -, rfl⟩ := hc; simp [kb]
  | hold h hp hr ht => simp [ht]
  | deliver h hp hr hl ht => simp [ht]

/-- The inputs of the present cycle are in the list, or the cycle is quiet. -/
theorem State.now_cases (s : State) : s.now = .quiet ∨ s.now ∈ s.inputs := by
  unfold State.now
  rcases s.inputs with _ | ⟨c, cs⟩ <;> simp

/-- Reads that come one cycle nearer: each takes one from the sum. -/
theorem sum_due (l : List (Nat × Nat)) (h : ∀ p ∈ l, 1 ≤ p.2) :
    (((l.filter (fun p => decide (1 < p.2))).map (fun p => (p.1, p.2 - 1))).map (·.2)).sum +
      l.length = (l.map (·.2)).sum := by
  induction l with
  | nil => rfl
  | cons p l ih =>
    have hp := h p (by simp)
    have := ih (fun q hq => h q (by simp [hq]))
    by_cases h1 : 1 < p.2
    · rw [List.filter_cons_of_pos (by simpa using h1)]
      simp only [List.map_cons, List.sum_cons, List.length_cons]; omega
    · rw [List.filter_cons_of_neg (by simpa using h1)]
      simp only [List.map_cons, List.sum_cons, List.length_cons]; omega

/-- A read of the read set that had not been issued leaves one fewer. -/
theorem unissued_lt {s t : State} {a : Nat} (hk : a ∈ keyAddrs) (hn : a ∉ s.issued)
    (h : t.issued = s.issued ++ [a]) :
    (keyAddrs.filter (fun x => !t.issued.contains x)).length <
      (keyAddrs.filter (fun x => !s.issued.contains x)).length := by
  have hsub : keyAddrs.filter (fun x => !t.issued.contains x) =
      (keyAddrs.filter (fun x => !s.issued.contains x)).filter (fun x => x ≠ a) := by
    rw [List.filter_filter]
    apply List.filter_congr
    intro x _
    simp [h, Bool.and_comm]
  rw [hsub]
  have ha : a ∈ keyAddrs.filter (fun x => !s.issued.contains x) :=
    List.mem_filter.2 ⟨hk, by simpa using hn⟩
  exact List.length_filter_lt_length_iff_exists.2 ⟨a, ha, by simp⟩

end Sys2Proof.Machine
end

