-- ==== Sys2Proof/Tests/Slice0.lean ====
section
/-! SUPPORT. The model's own tests: ill-formed terms refused, words and frames written out from the
spec, one small step for each instruction, and for every statement with hypotheses a witness that
meets them. Expected results are those of 95_test_vectors.md (vector or trace named at each test) or
worked out by hand from the rule named. -/

namespace Sys2Proof.Tests

open Sys2Proof Sys2Proof.Machine

-- One theorem at a time: the checks of many at once take more memory than the checker allows.
set_option Elab.async false

/-! ### Frames (section 0 of 95_test_vectors.md) -/

/-- The Ethernet header's first twelve bytes: the two MAC addresses. -/
def macs : List Byte :=
  [0xFF#8, 0xFF#8, 0xFF#8, 0xFF#8, 0xFF#8, 0xFF#8, 0x02#8, 0#8, 0#8, 0#8, 0#8, 0x01#8]

/-- The IPv4 bytes after the first, up to the protocol. -/
def ipA : List Byte := [0x00#8, 0x00#8, 0x1D#8, 0#8, 0#8, 0x40#8, 0#8, 0x40#8]

/-- The IPv4 bytes after the protocol: checksum and addresses. -/
def ipB : List Byte := [0#8, 0#8, 0x0A#8, 0#8, 0#8, 0x01#8, 0x0A#8, 0#8, 0#8, 0x02#8]

/-- The UDP header. -/
def udpHeader : List Byte := [0x30#8, 0x39#8, 0x1F#8, 0x90#8, 0#8, 0x09#8, 0#8, 0#8]

/-- F43 with another EtherType, another byte 14 and another protocol byte. -/
def frameWith (etHi etLo v p : Byte) : List Byte :=
  macs ++ [etHi, etLo, v] ++ ipA ++ [p] ++ ipB ++ udpHeader ++ [0x01#8]

/-- F43. -/
def f43 : List Byte := frameWith 0x08#8 0x00#8 0x45#8 17#8

/-- F47, IHL 6: four option bytes. -/
def f47 : List Byte :=
  macs ++ [0x08#8, 0x00#8, 0x46#8] ++ ipA ++ [17#8] ++ ipB ++ [1#8, 1#8, 1#8, 1#8] ++ udpHeader ++
    [0x01#8]

/-- F83, IHL 15: forty option bytes. -/
def f83 : List Byte :=
  macs ++ [0x08#8, 0x00#8, 0x4F#8] ++ ipA ++ [17#8] ++ ipB ++ List.replicate 40 1#8 ++ udpHeader ++
    [0x01#8]

/-! ### States -/

/-- BUSY with a frame of `len` bytes and these bytes answered. -/
def busyWith (len : Nat) (data : List (Nat × Byte)) : State :=
  { State.reset with phase := .busy, lenR := len, rdData := data }

/-- The key bytes of F43 but for byte 14 and the protocol. -/
def keyData (v p : Byte) : List (Nat × Byte) := [(12, 0x08#8), (13, 0x00#8), (14, v), (23, p)]

/-- FB with the key bytes of F43. -/
def keyFb : Memory := [(12, 0x08#8), (14, 0x45#8), (23, 17#8)]

/-- RESP with this response to a frame of `len` bytes. -/
def respWith (len : Nat) (r : Response) : State :=
  { State.reset with
    phase := .resp, lenR := len, vihl := 0x45#8, fb := keyFb
    resStatus := r.status, resDetail := r.detail, resOffset := r.offset, resLength := r.length }

/-- `(OK, NONE, 42, 1)`. -/
def okResponse : Response := ⟨0b000#3, 0x0#4, 42, 1⟩

/-- `(NOT_UDP, NON_UDP_PROTOCOL, 0, 0)`. -/
def notUdpResponse : Response := ⟨0b010#3, 0x7#4, 0, 0⟩

/-- The state with this input in its coming cycle, and quiet ones after it. -/
def withInput (s : State) (c : PortIn) : State := { s with inputs := [c] }

/-- A request of `n` bytes. -/
def request (n : Nat) : PortIn := { PortIn.quiet with reqValid := true, reqLen := n }

/-- A ready consumer. -/
def ready : PortIn := { PortIn.quiet with rspReady := true }

/-- Reset. -/
def resetInput : PortIn := { PortIn.quiet with rst := true }

/-- A write to byte 14 of the frame. -/
def frameWrite : PortIn := { PortIn.quiet with fbWrites := [(14, 0x46#8)] }

/-- What a step leaves on the response port, with the phase. -/
def after (s : State) : Option (Phase × Response) :=
  match step s with
  | .next t => some (t.phase, t.response)
  | .fault _ | .refused _ => none

/-! ### Ill-formed terms -/

/-- `req_len` has `LEN_W` bits. -/
theorem test_wellFormed_extract :
    (Instr.extract 65536).wellFormed 16 = false ∧ (Instr.extract 128).wellFormed 7 = false := by
  decide
theorem test_wellFormed_ethertype : (Instr.rejBadEthertype 0x0800#16).wellFormed 16 = false := by decide
theorem test_wellFormed_version : (Instr.rejBadVersion 4#4 5#4).wellFormed 16 = false := by decide
theorem test_wellFormed_badIhl : (Instr.rejBadIhl 5#4).wellFormed 16 = false := by decide
theorem test_wellFormed_options :
    (Instr.rejIpv4OptionsTruncated 5#4).wellFormed 16 = false := by decide
theorem test_wellFormed_notUdp_ihl : (Instr.rejNotUdp 4#4 6#8).wellFormed 16 = false := by decide
theorem test_wellFormed_notUdp_proto : (Instr.rejNotUdp 5#4 17#8).wellFormed 16 = false := by decide
theorem test_wellFormed_udpHdr : (Instr.rejUdpHdrTruncated 4#4).wellFormed 16 = false := by decide
theorem test_wellFormed_empty : (Instr.rejEmptyPayload 4#4).wellFormed 16 = false := by decide
theorem test_wellFormed_accept : (Instr.accept 4#4).wellFormed 16 = false := by decide

/-- Lengths just outside each row's range (the table of section 2.2 of 95_test_vectors.md). -/
theorem test_fitsLength_edges :
    Instr.rejEthTruncated.fitsLength 14 = false ∧
    (Instr.rejBadEthertype 0#16).fitsLength 13 = false ∧
    Instr.rejIpv4Truncated.fitsLength 34 = false ∧
    (Instr.rejBadVersion 6#4 5#4).fitsLength 33 = false ∧
    (Instr.rejBadIhl 4#4).fitsLength 33 = false ∧
    (Instr.rejIpv4OptionsTruncated 6#4).fitsLength 38 = false ∧
    (Instr.rejNotUdp 6#4 6#8).fitsLength 37 = false ∧
    (Instr.rejUdpHdrTruncated 5#4).fitsLength 42 = false ∧
    (Instr.rejEmptyPayload 5#4).fitsLength 43 = false ∧
    (Instr.accept 5#4).fitsLength 42 = false := by decide

/-- A byte string of another size is no encoded instruction, by name. -/
theorem test_decode_noFormat :
    decode [0x08#8, 0x00#8, 0x45#8] = .error (.noFormat 3) := by decide

/-! ### Decoding: one word or frame for each instruction -/

/-- Rule R75: `EXTRACT` of F43 is `REQ 43`, "req_len = 0x002B at LEN_W = 16" (program P1). -/
theorem test_decode_extract : decodeTableWord 16 0x002B = some (.extract 43) := by decide
/-- V4. -/
theorem test_decode_rejEthTruncated : decodeFrame (f43.take 13) = .rejEthTruncated := by decide
/-- V12. -/
theorem test_decode_rejBadEthertype :
    decodeFrame (frameWith 0x86#8 0xDD#8 0x45#8 17#8) = .rejBadEthertype 0x86DD#16 := by decide
/-- V7. -/
theorem test_decode_rejIpv4Truncated : decodeFrame (f43.take 33) = .rejIpv4Truncated := by decide
/-- V50: version 6 with IHL 3. -/
theorem test_decode_rejBadVersion :
    decodeFrame (frameWith 0x08#8 0x00#8 0x63#8 17#8) = .rejBadVersion 6#4 3#4 := by decide
/-- V51: IHL 3 with protocol 6. -/
theorem test_decode_rejBadIhl :
    decodeFrame (frameWith 0x08#8 0x00#8 0x43#8 6#8) = .rejBadIhl 3#4 := by decide
/-- V35. -/
theorem test_decode_rejIpv4OptionsTruncated :
    decodeFrame (f83.take 73) = .rejIpv4OptionsTruncated 15#4 := by decide
/-- V47: no UDP header needed. -/
theorem test_decode_rejNotUdp :
    decodeFrame ((frameWith 0x08#8 0x00#8 0x45#8 6#8).take 34) = .rejNotUdp 5#4 6#8 := by decide
/-- V32: byte 14 of F43 at face value. -/
theorem test_decode_rejUdpHdrTruncated :
    decodeFrame (frameWith 0x08#8 0x00#8 0x46#8 17#8) = .rejUdpHdrTruncated 6#4 := by decide
/-- V38. -/
theorem test_decode_rejEmptyPayload : decodeFrame (f83.take 82) = .rejEmptyPayload 15#4 := by decide
/-- V39. -/
theorem test_decode_accept : decodeFrame f83 = .accept 15#4 := by decide
/-- V1 and V33: the frames' own bytes. -/
theorem test_decode_accept_f43_f47 :
    decodeFrame f43 = .accept 5#4 ∧ decodeFrame f47 = .accept 6#4 := by decide

/-! ### One step for each instruction -/

/-- X3: the request handshake. -/
theorem test_step_extract :
    after (withInput State.reset (request 43)) = some (.busy, ⟨0#3, 0#4, 0, 0⟩) := by decide
/-- V4. -/
theorem test_step_rejEthTruncated :
    after (busyWith 13 []) = some (.resp, ⟨0b001#3, 0x1#4, 0, 0⟩) := by decide
/-- V20: one bit off in the EtherType's high byte. -/
theorem test_step_rejBadEthertype :
    after (busyWith 43 [(12, 0x18#8), (13, 0x00#8)]) = some (.resp, ⟨0b001#3, 0x2#4, 0, 0⟩) := by
  decide
/-- V5. -/
theorem test_step_rejIpv4Truncated :
    after (busyWith 14 [(12, 0x08#8), (13, 0x00#8)]) = some (.resp, ⟨0b001#3, 0x3#4, 0, 0⟩) := by
  decide
/-- V26. -/
theorem test_step_rejBadVersion :
    after (busyWith 43 [(12, 0x08#8), (13, 0x00#8), (14, 0x55#8)]) =
      some (.resp, ⟨0b001#3, 0x4#4, 0, 0⟩) := by decide
/-- V31. -/
theorem test_step_rejBadIhl :
    after (busyWith 43 [(12, 0x08#8), (13, 0x00#8), (14, 0x44#8)]) =
      some (.resp, ⟨0b001#3, 0x5#4, 0, 0⟩) := by decide
/-- V52: before the protocol is looked at. -/
theorem test_step_rejIpv4OptionsTruncated :
    after (busyWith 60 [(12, 0x08#8), (13, 0x00#8), (14, 0x4F#8)]) =
      some (.resp, ⟨0b001#3, 0x6#4, 0, 0⟩) := by decide
/-- V45: bit 7 of the protocol flipped. -/
theorem test_step_rejNotUdp :
    after (busyWith 43 (keyData 0x45#8 0x91#8)) = some (.resp, notUdpResponse) := by decide
/-- V10. -/
theorem test_step_rejUdpHdrTruncated :
    after (busyWith 41 (keyData 0x45#8 17#8)) = some (.resp, ⟨0b011#3, 0x8#4, 0, 0⟩) := by decide
/-- V11. -/
theorem test_step_rejEmptyPayload :
    after (busyWith 42 (keyData 0x45#8 17#8)) = some (.resp, ⟨0b011#3, 0x9#4, 0, 0⟩) := by decide
/-- V62: the longest frame. -/
theorem test_step_accept :
    after (busyWith 65535 (keyData 0x45#8 17#8)) = some (.resp, ⟨0b000#3, 0x0#4, 42, 65493⟩) := by
  decide

/-! ### The machine around the instructions -/

/-- Cycle 2 of the trace in section 3.2 of 95_test_vectors.md: the first read is of byte 12. -/
theorem test_first_read : (busyWith 43 []).readRequest = some 12 := by decide
/-- Cycle 6 of that trace: the last byte on `fb_rd_data` decides at the same edge. -/
theorem test_last_byte_decides :
    after { busyWith 43 [(12, 0x08#8), (13, 0x00#8), (14, 0x45#8)] with
      fb := keyFb, rdPending := [(23, 1)] } = some (.resp, okResponse) := by decide
/-- X9: no request is taken while `rst = 1`. -/
theorem test_reset_takes_no_request :
    after (withInput State.reset { request 43 with rst := true }) =
      some (.idle, ⟨0#3, 0#4, 0, 0⟩) := by decide
/-- X8: reset wins over a ready consumer, and no tuple is logged. -/
theorem test_reset_wins_over_delivery :
    (match step (withInput (respWith 43 okResponse) { ready with rst := true }) with
      | .next t => t.phase == .idle && t.log == []
      | .fault _ | .refused _ => false) = true := by decide
/-- X7: the response handshake logs the tuple. -/
theorem test_delivery_logs :
    (match step (withInput (respWith 43 okResponse) ready) with
      | .next t => t.phase == .idle && t.log == [okResponse]
      | .fault _ | .refused _ => false) = true := by decide
/-- H2: the bytes of the descriptor go downstream. -/
theorem test_handoff :
    ({ respWith 50 ⟨0b000#3, 0x0#4, 46, 4⟩ with
      fb := [(46, 0xDE#8), (47, 0xAD#8), (48, 0xBE#8), (49, 0xEF#8)] } : State).handoff 0 =
      some [0xDE#8, 0xAD#8, 0xBE#8, 0xEF#8] := by decide
/-- Rule R237: no payload while `rsp_valid = 0`, though `res_status` reads as OK. -/
theorem test_no_handoff :
    State.reset.handoff 0 = none ∧
    (withInput (respWith 43 okResponse) { ready with rst := true }).handoff 0 = none := by decide
/-- Rules R172 and R235: a write to the frame in RESP ends the payload's lifetime, one just past the
frame does not, and a response taken in such a cycle is on loan accordingly. -/
theorem test_payload_lifetime :
    (match step (withInput (respWith 43 okResponse) frameWrite) with
      | .next t => t.payloadIntact == false
      | .fault _ | .refused _ => false) = true ∧
    (match step (withInput (respWith 43 okResponse) { ready with fbWrites := [(43, 1#8)] }) with
      | .next t => t.loans == [⟨42, 1, true⟩]
      | .fault _ | .refused _ => false) = true ∧
    (match step (withInput (respWith 43 okResponse) { ready with fbWrites := [(42, 1#8)] }) with
      | .next t => t.loans == [⟨42, 1, false⟩]
      | .fault _ | .refused _ => false) = true := by decide
/-- Rules R10 and R40 at `LEN_W = 7`: of a request of 300 the port carries 44, and FB has addresses 0
to 127. -/
theorem test_lenW_seven :
    (match step { withInput State.reset
          { request 300 with fbWrites := [(128, 1#8), (127, 2#8)] } with lenW := 7 } with
      | .next t => t.lenR == 44 && t.fb == [(127, 2#8)]
      | .fault _ | .refused _ => false) = true := by decide
/-- `Extract` of rule R101 on F47 (V33) and on its prefix of 37 bytes (section 2.2, IHL 6). -/
theorem test_Extract :
    Extract 47 (frameByte f47) = ⟨.ok, .none, 46, 1⟩ ∧
    Extract 37 (frameByte f47) = ⟨.frameMalformed, .ipv4OptionsTruncated, 0, 0⟩ := by decide
/-- Writing what an unlisted address reads as takes the entry out. -/
theorem test_memory_canonical :
    Memory.write (Memory.write [] 7 0x55#8) 7 0#8 = [] ∧
    Memory.write (Memory.write [] 9 1#8) 7 2#8 = [(7, 2#8), (9, 1#8)] := by decide

/-! ### Witnesses: concrete states and operands that meet the hypotheses of each statement -/

/-- The invariant from checks of its parts; `l` is the list of reads issued. -/
theorem invariant_of {s : State} (l : List Nat) (hr : resultOk s) (hl : s.issued = l)
    (hd : s.rdData.all (fun p => p.2 == memRead s p.1) = true)
    (hn : l.Nodup := by decide)
    (hk : l.all (fun a => keyAddrs.contains a && decide (a < s.lenR)) = true := by decide)
    (hm : Memory.wf s.fb := by decide) (hi : Memory.inside s.lenW s.fb := by decide)
    (hf : s.lenR < 2 ^ s.lenW ∧ s.resOffset < 2 ^ s.lenW ∧ s.resLength < 2 ^ s.lenW := by decide)
    (hq : s.phase ≠ .busy → s.rdPending = [] ∧ s.rdData = [] ∧ s.disturbed = false := by decide)
    (hp : s.rdPending.all (fun p => decide (1 ≤ p.2 ∧ p.2 ≤ s.rdLat)) = true := by decide)
    (ho : s.loans = [] := by decide) (h1 : 1 ≤ s.rdLat := by decide)
    (h7 : 7 ≤ s.lenW := by decide) : Invariant s where
  canonical := hm
  inside := hi
  registers := hf
  result := hr
  readPort := by
    refine ⟨hq, hl ▸ hn, ?_, ?_, ?_⟩
    · intro a ha
      have := List.all_eq_true.1 hk a (hl ▸ ha)
      simpa using this
    · intro p hp'
      exact of_decide_eq_true (List.all_eq_true.1 hp p hp')
    · intro _ p hp'
      simpa using List.all_eq_true.1 hd p hp'
  loans := by rw [ho]; simp
  rdLat := h1
  lenW := h7

/-- BUSY with F43 and two bytes answered, the third outstanding. -/
def busyMid : State :=
  { busyWith 43 [(12, 0x08#8), (13, 0x00#8)] with fb := keyFb, rdPending := [(14, 1)] }

/-- BUSY with `RD_LAT = 3` and reads outstanding at every distance. -/
def busySlow : State :=
  { busyWith 43 [] with
    fb := keyFb, rdPending := [(12, 1), (13, 2), (14, 3)], rdLat := 3, sched := [.issue 23] }

/-- BUSY with F43 and the last byte arriving. -/
def busyLast : State :=
  { busyWith 43 [(12, 0x08#8), (13, 0x00#8), (14, 0x45#8)] with fb := keyFb, rdPending := [(23, 1)] }

/-- A request of 13 bytes is offered. -/
def opening : State := withInput State.reset (request 13)

theorem reset_invariant : Invariant State.reset :=
  invariant_of [] ⟨by decide, by decide, by intro h; cases h⟩ rfl rfl

theorem busyMid_invariant : Invariant busyMid :=
  invariant_of [12, 13, 14] ⟨by decide, by decide, by intro h; cases h⟩ rfl (by decide)

theorem busySlow_invariant : Invariant busySlow :=
  invariant_of [12, 13, 14] ⟨by decide, by decide, by intro h; cases h⟩ rfl (by decide)

theorem busyLast_invariant : Invariant busyLast :=
  invariant_of [12, 13, 14, 23] ⟨by decide, by decide, by intro h; cases h⟩ rfl (by decide)

theorem resp_invariant :
    Invariant (withInput (respWith 43 okResponse) ready) ∧
      Invariant (withInput (respWith 43 notUdpResponse) ready) :=
  ⟨invariant_of [] ⟨by decide, by decide, fun _ => ⟨by decide, by decide, by decide⟩⟩ rfl rfl,
    invariant_of [] ⟨by decide, by decide, fun _ => ⟨by decide, by decide, by decide⟩⟩ rfl rfl⟩

theorem witness_DecodeReadsBackEncode :
    ((Instr.rejEthTruncated).wellFormed 16 = true ∧ Instr.rejEthTruncated.fitsLength 13 = true) ∧
    ((Instr.rejNotUdp 15#4 6#8).wellFormed 16 = true ∧
      (Instr.rejNotUdp 15#4 6#8).fitsLength 74 = true) ∧
    ((Instr.accept 15#4).wellFormed 16 = true ∧ (Instr.accept 15#4).fitsLength 65535 = true) ∧
    65535 ≤ maxFrameLen 16 ∧
    ((Instr.extract 127).wellFormed 7 = true ∧ (Instr.extract 65535).wellFormed 16 = true) := by
  decide

theorem witness_RequestHandshakeOpensTransaction :
    (State.reset.phase = .idle ∧ (Instr.extract 65535).wellFormed State.reset.lenW = true) ∧
      (busyWith 43 []).phase ≠ .idle ∧ (respWith 43 okResponse).phase ≠ .idle := by decide

theorem witness_ShortFrameIsEthTruncated :
    (busyWith 13 []).phase = .busy ∧ (busyWith 13 []).lenR < 14 ∧ (busyWith 13 []).sched = [] := by
  decide

theorem witness_OtherEthertypeIsBadEthertype :
    (sampled [] 12 = none) ∧
    (sampled [(12, 0x86#8)] 12 = some 0x86#8 ∧ sampled [(12, 0x86#8)] 13 = none) ∧
    (sampled [(12, 0x86#8), (13, 0xDD#8)] 12 = some 0x86#8 ∧
      sampled [(12, 0x86#8), (13, 0xDD#8)] 13 = some 0xDD#8 ∧
      0x86#8 ++ 0xDD#8 ≠ 0x0800#16) ∧
    (busyWith 14 []).phase = .busy ∧ 14 ≤ (busyWith 14 []).lenR ∧
    0x86DD#16 ≠ 0x0800#16 := by decide

theorem witness_ShortIpv4FrameIsIpv4Truncated :
    (sampled (keyData 0#8 0#8) 12 = some 0x08#8 ∧ sampled (keyData 0#8 0#8) 13 = some 0x00#8) ∧
    ((busyWith 14 []).phase = .busy ∧ 14 ≤ (busyWith 14 []).lenR ∧
      (busyWith 14 []).lenR < 34) ∧
    ((busyWith 33 []).phase = .busy ∧ 14 ≤ (busyWith 33 []).lenR ∧
      (busyWith 33 []).lenR < 34 ∧ (busyWith 33 []).sched = []) := by decide

theorem witness_OtherVersionIsBadVersion :
    (sampled [(12, 0x08#8), (13, 0x00#8)] 12 = some 0x08#8 ∧
      sampled [(12, 0x08#8), (13, 0x00#8)] 13 = some 0x00#8 ∧
      0x08#8 ++ 0x00#8 = 0x0800#16 ∧ sampled [(12, 0x08#8), (13, 0x00#8)] 14 = none) ∧
    (sampled (keyData 0x65#8 17#8) 14 = some (6#4 ++ 5#4) ∧ 6#4 ≠ 4#4) ∧
    (busyWith 34 []).phase = .busy ∧ 34 ≤ (busyWith 34 []).lenR := by decide

theorem witness_SmallIhlIsBadIhl :
    (busyWith 34 []).phase = .busy ∧ 34 ≤ (busyWith 34 []).lenR ∧ (4#4).toNat < 5 := by decide

theorem witness_CutOptionsAreOptionsTruncated :
    (decodeKey 37 0x08004611#32 = .rejIpv4OptionsTruncated 6#4) ∧
    (busyWith 73 []).phase = .busy ∧ 34 ≤ (busyWith 73 []).lenR ∧ 5 ≤ (15#4).toNat ∧
      (busyWith 73 []).lenR < 14 + 4 * (15#4).toNat := by decide

theorem witness_OtherProtocolIsNotUdp :
    (sampled [(12, 0x08#8), (13, 0x00#8), (14, 0x45#8)] 14 = some (4#4 ++ 5#4) ∧
      sampled [(12, 0x08#8), (13, 0x00#8), (14, 0x45#8)] 23 = none) ∧
    (sampled (keyData 0x45#8 6#8) 12 = some 0x08#8 ∧ sampled (keyData 0x45#8 6#8) 13 = some 0x00#8 ∧
      sampled (keyData 0x45#8 6#8) 14 = some (4#4 ++ 5#4) ∧
      sampled (keyData 0x45#8 6#8) 23 = some 6#8) ∧
    (busyWith 34 []).phase = .busy ∧ 5 ≤ (5#4).toNat ∧
    14 + 4 * (5#4).toNat ≤ (busyWith 34 []).lenR ∧ 6#8 ≠ 17#8 := by decide

theorem witness_CutUdpHeaderIsUdpHdrTruncated :
    (5 ≤ (5#4).toNat ∧ (busyWith 41 []).readRequest = some 12) ∧
    (5 ≤ (5#4).toNat ∧ nextRead 41 (sampled [(12, 0x08#8), (13, 0x00#8), (14, 0x45#8)]) = some 23) ∧
    ((busyWith 34 []).phase = .busy ∧ 5 ≤ (5#4).toNat ∧
      14 + 4 * (5#4).toNat ≤ (busyWith 34 []).lenR ∧
      (busyWith 34 []).lenR < 14 + 4 * (5#4).toNat + 8) ∧
    ((busyWith 81 []).phase = .busy ∧ 5 ≤ (15#4).toNat ∧
      14 + 4 * (15#4).toNat ≤ (busyWith 81 []).lenR ∧
      (busyWith 81 []).lenR < 14 + 4 * (15#4).toNat + 8) := by decide

theorem witness_NoPayloadIsEmptyPayload :
    (busyWith 42 []).phase = .busy ∧ 5 ≤ (5#4).toNat ∧
      (busyWith 42 []).lenR = 14 + 4 * (5#4).toNat + 8 := by decide

theorem witness_AcceptReturnsTheDescriptor :
    (∃ t, exec (.rejEmptyPayload 5#4) (busyWith 42 []) = .next t ∧ t.phase = .resp ∧
      (Instr.rejEmptyPayload 5#4).isOutcome = true) ∧
    ((busyWith 43 []).phase = .busy ∧ 5 ≤ (5#4).toNat ∧
      (busyWith 43 []).lenR < 2 ^ (busyWith 43 []).lenW ∧
      14 + 4 * (5#4).toNat + 8 < (busyWith 43 []).lenR) ∧
    ((busyWith 65535 []).phase = .busy ∧ 5 ≤ (15#4).toNat ∧
      (busyWith 65535 []).lenR < 2 ^ (busyWith 65535 []).lenW ∧
      14 + 4 * (15#4).toNat + 8 < (busyWith 65535 []).lenR) :=
  ⟨⟨_, rfl, rfl, rfl⟩, by decide, by decide⟩

theorem witness_OutcomeRowsActOnlyInBusy :
    (Instr.accept 5#4).isOutcome = true ∧ State.reset.phase ≠ .busy ∧
      (respWith 43 okResponse).phase ≠ .busy := by decide

theorem witness_InstructionsLeaveTheRestAlone :
    (∃ t, exec (.extract 43) State.reset = .next t ∧ (Instr.extract 43).isOutcome = false) ∧
    (∃ t, exec (.accept 5#4) (busyWith 43 []) = .next t ∧
      (Instr.accept 5#4).isOutcome = true) :=
  ⟨⟨_, rfl, rfl⟩, ⟨_, rfl, rfl⟩⟩

theorem witness_ReservedCodesAreNeverDriven :
    legalCodes (busyWith 43 []).resStatus (busyWith 43 []).resDetail = true ∧
      ∃ t, exec (.rejNotUdp 5#4 6#8) (busyWith 43 []) = .next t :=
  ⟨rfl, _, rfl⟩

theorem witness_SelectedRowComputesExtract :
    (busyWith 65535 []).phase = .busy ∧
      (busyWith 65535 []).lenR < 2 ^ (busyWith 65535 []).lenW := by decide

/-- F43 and F43 with another first byte: the bytes read are the same. -/
theorem witness_ExtractDependsOnlyOnBytesRead :
    extractReads 43 (frameByte f43) = [12, 13, 14, 23] ∧
    ∀ a ∈ extractReads 43 (frameByte f43), frameByte (0#8 :: f43.tail) a = frameByte f43 a := by
  decide

theorem witness_DescriptorRunsToTheEndOfTheBuffer :
    (Extract 43 (frameByte f43)).status = .ok ∧ (Extract 42 (frameByte f43)).status ≠ .ok := by
  decide

theorem witness_ExtractionProperties :
    (frameByte f43 12 = 0x08#8 ∧ frameByte f43 13 = 0x00#8 ∧ frameByte f43 14 = 4#4 ++ 5#4 ∧
      5 ≤ (5#4).toNat ∧ frameByte f43 23 = 17#8) ∧
    (frameByte (frameWith 0x08#8 0x00#8 0x45#8 6#8) 23 ≠ 17#8 ∧ 14 + 4 * (5#4).toNat ≤ 43) ∧
    (frameByte f47 12 = 0x08#8 ∧ frameByte f47 13 = 0x00#8 ∧ frameByte f47 14 = 0x46#8 ∧
      frameByte f47 23 = 17#8 ∧ 46 < f47.length) ∧
    (macs.length = 12 ∧ ipA.length = 8 ∧ ipB.length + 10 = 4 * (5#4).toNat ∧
      udpHeader.length = 8 ∧ [0x01#8] ≠ []) := by decide

theorem witness_StepRunsTheDecodedInstruction :
    (opening.now.rst = false ∧ opening.phase = .idle ∧ opening.now.reqValid = true ∧
      decodeRequest (BitVec.ofNat opening.lenW opening.now.reqLen) = .extract 13) ∧
    ((busyWith 43 (keyData 0x45#8 17#8)).now.rst = false ∧
      (busyWith 43 (keyData 0x45#8 17#8)).phase = .busy ∧
      (busyWith 43 (keyData 0x45#8 17#8)).busyCycle.plan = .finish ∧
      decodeKey (busyWith 43 (keyData 0x45#8 17#8)).lenR
        (sampledKey (busyWith 43 (keyData 0x45#8 17#8)).busyCycle.rdData) = .accept 5#4) := by
  decide

/-- A request, a key with the longest frame, and a key with a frame of 13 bytes. -/
theorem witness_FetchWordIsTheNextInstruction :
    decodeTableWord 16 0xFFFF = some (.extract 65535) ∧
    decodeTableWord 32 0x08004511 = some (.accept 5#4) ∧
    decodeTableWord 48 (65522 * 2 ^ 32 + 0x08004511) = some .rejEthTruncated ∧
    (Instr.extract 65535).isOutcome = false ∧ 16 ≤ State.reset.lenW ∧
    (Instr.accept 5#4).isOutcome = true ∧ Instr.rejEthTruncated.isOutcome = true := by decide

theorem witness_IdleWaitsForARequest :
    (opening.phase = .idle ∧ opening.now.rst = false ∧ opening.now.reqValid = true ∧
      opening.now.reqLen < 2 ^ opening.lenW) ∧
    (State.reset.phase = .idle ∧ State.reset.now.rst = false ∧ State.reset.now.reqValid = false) := by
  decide

theorem witness_ResponseIsHeldUntilTaken :
    ((respWith 43 okResponse).phase = .resp ∧ (respWith 43 okResponse).now.rst = false ∧
      (respWith 43 okResponse).now.rspReady = false) ∧
    ((withInput (respWith 43 okResponse) ready).phase = .resp ∧
      (withInput (respWith 43 okResponse) ready).now.rst = false ∧
      (withInput (respWith 43 okResponse) ready).now.rspReady = true ∧
      legalCodes (withInput (respWith 43 okResponse) ready).resStatus
        (withInput (respWith 43 okResponse) ready).resDetail = true) := by decide

theorem witness_QuietEdgesKeepTheBlock :
    ((withInput State.reset frameWrite).now.rst = false ∧
      (withInput State.reset frameWrite).phase = .idle ∧
      (withInput State.reset frameWrite).now.reqValid = false) ∧
    ((respWith 43 okResponse).now.rst = false ∧ (respWith 43 okResponse).phase = .resp ∧
      (respWith 43 okResponse).now.rspReady = false) := by decide

/-- `EMPTY_RECORD` of the record decoder, which this block never drives (rule R173). -/
theorem witness_ReservedResponseIsAFault :
    (withInput (respWith 43 ⟨0b101#3, 0#4, 0, 0⟩) ready).phase = .resp ∧
    (withInput (respWith 43 ⟨0b101#3, 0#4, 0, 0⟩) ready).now.rst = false ∧
    (withInput (respWith 43 ⟨0b101#3, 0#4, 0, 0⟩) ready).now.rspReady = true ∧
    legalCodes (withInput (respWith 43 ⟨0b101#3, 0#4, 0, 0⟩) ready).resStatus
      (withInput (respWith 43 ⟨0b101#3, 0#4, 0, 0⟩) ready).resDetail = false := by decide

theorem witness_ResetWinsInEveryState :
    (withInput busyMid resetInput).now.rst = true ∧
    (withInput (respWith 43 okResponse) { ready with rst := true }).now.rst = true := by decide

theorem witness_LongerResetHasTheSameEffect :
    resetInput.rst = true ∧ resetInput.fbWrites = [] := by decide

theorem witness_InputsMatterOnlyWhereSampled :
    ready.rst = PortIn.quiet.rst ∧ ready.fbWrites = PortIn.quiet.fbWrites ∧
    ready.badAnswer = PortIn.quiet.badAnswer ∧
    (State.reset.phase = .idle → ready.reqValid = PortIn.quiet.reqValid ∧
      (ready.reqValid = true → ready.reqLen = PortIn.quiet.reqLen)) ∧
    (State.reset.phase = .resp → ready.rspReady = PortIn.quiet.rspReady) := by decide

/-- The response handshake, and a request offered in the cycle after it. -/
theorem witness_NextRequestComesAfterTheResponse :
    ({ respWith 43 okResponse with inputs := [ready, request 43] }).responseHandshake = true ∧
    ∃ t, step { respWith 43 okResponse with inputs := [ready, request 43] } = .next t ∧
      t.now.rst = false ∧ t.now.reqValid = true :=
  ⟨by decide, _, rfl, rfl, rfl⟩

theorem witness_LogGrowsOnlyAtResponseHandshakes :
    (∃ t, step (withInput (respWith 43 okResponse) ready) = .next t) ∧
      (withInput (respWith 43 okResponse) ready).responseHandshake = true ∧
    (∃ t, step (respWith 43 okResponse) = .next t) ∧
      (respWith 43 okResponse).responseHandshake = false :=
  ⟨⟨_, rfl⟩, by decide, ⟨_, rfl⟩, by decide⟩

theorem witness_EveryRejectionLeavesItsDiagnostic :
    (∃ t, step (withInput (respWith 43 notUdpResponse) ready) = .next t) ∧
      (withInput (respWith 43 notUdpResponse) ready).responseHandshake = true ∧
      (withInput (respWith 43 notUdpResponse) ready).resStatus ≠ Status.ok.code :=
  ⟨⟨_, rfl⟩, by decide, by decide⟩

theorem witness_OnlyTheFrameSourceWritesFB :
    ∃ t, step (withInput State.reset frameWrite) = .next t ∧ t.fb = [(14, 0x46#8)] ∧
      ∀ w ∈ (withInput State.reset frameWrite).now.fbWrites, w.1 ≠ 13 :=
  ⟨_, rfl, by decide, by decide⟩

theorem witness_ParametersNeverChange :
    ∃ t, Sys2Proof.core.run 2 { opening with lenW := 7, rdLat := 3 } = .next t ∧ t.lenW = 7 :=
  ⟨_, rfl, rfl⟩

theorem witness_ReadsAreInBoundsAndOnce :
    (busyWith 14 []).readRequest = some 12 ∧ busySlow.readRequest = some 23 ∧
      busySlow.fbRdEn = true := by decide

/-- A read is issued, one is two cycles away and one arrives; and, with the last byte arriving, BUSY ends
(cycle 6 of the trace in section 3.2 of 95_test_vectors.md). -/
theorem witness_ReadDataComesAfterRdLat :
    Invariant busySlow ∧ busySlow.phase = .busy ∧ busySlow.now.rst = false ∧
    (∃ t, step busySlow = .next t ∧ t.phase = .busy) ∧ busySlow.readRequest = some 23 ∧
    (13, 1 + 1) ∈ busySlow.rdPending ∧ (12, 1) ∈ busySlow.rdPending ∧ busySlow.disturbed = false ∧
    breaksDuty busySlow.lenR busySlow.now = false ∧
    Invariant busyLast ∧ busyLast.phase = .busy ∧ busyLast.now.rst = false ∧
    (∃ t, step busyLast = .next t ∧ t.phase = .resp) ∧ (23, 1) ∈ busyLast.rdPending ∧
    busyLast.disturbed = false ∧ breaksDuty busyLast.lenR busyLast.now = false ∧
    busyLast.busyCycle.plan = .finish :=
  ⟨busySlow_invariant, rfl, rfl, ⟨_, rfl, rfl⟩, by decide, by decide, by decide, rfl, rfl,
    busyLast_invariant, rfl, rfl, ⟨_, rfl, rfl⟩, by decide, rfl, rfl, by decide⟩

/-- All four key bytes of F43 read. -/
theorem witness_AtMostFourReads :
    Invariant { busyWith 43 (keyData 0x45#8 17#8) with fb := keyFb } ∧
    ({ busyWith 43 (keyData 0x45#8 17#8) with fb := keyFb } : State).issued.length = 4 :=
  ⟨invariant_of [12, 13, 14, 23] ⟨by decide, by decide, by intro h; cases h⟩ rfl (by decide),
    by decide⟩

theorem witness_BreachMakesReadsFree :
    (withInput busyMid frameWrite).phase = .busy ∧
    breaksDuty (withInput busyMid frameWrite).lenR (withInput busyMid frameWrite).now = true ∧
    (withInput busyMid frameWrite).rdData ≠ [] ∧
    breaksDuty 43 { PortIn.quiet with badAnswer := true } = true := by decide

theorem witness_InvariantKeptByEveryStep :
    (Invariant busyMid ∧ ∃ t, step busyMid = .next t) ∧
    (Invariant (withInput (respWith 43 okResponse) ready) ∧
      ∃ t, step (withInput (respWith 43 okResponse) ready) = .next t) :=
  ⟨⟨busyMid_invariant, _, rfl⟩, resp_invariant.1, _, rfl⟩

theorem witness_NoStateStopsTheBlock : Invariant State.reset ∧ Invariant busyMid :=
  ⟨reset_invariant, busyMid_invariant⟩

theorem witness_BusyComesNearerToItsEnd :
    Invariant busyMid ∧ busyMid.phase = .busy ∧ busyMid.now.rst = false :=
  ⟨busyMid_invariant, rfl, rfl⟩

theorem opening_opensTransaction : opensTransaction 13 opening :=
  ⟨invariant_of [] ⟨by decide, by decide, by intro h; cases h⟩ rfl rfl,
    rfl, by decide, request 13, [], rfl, rfl, rfl, by
      intro c hc
      rw [List.mem_singleton.1 hc]
      exact ⟨rfl, rfl⟩⟩

theorem witness_EveryTransactionAnswersExtract : opensTransaction 13 opening :=
  opening_opensTransaction

/-- The shortest transaction: `LAT = 2` (rule R146). -/
theorem witness_ResponseDependsOnlyOnLengthAndKey :
    opensTransaction 13 opening ∧
    (∀ a ∈ [12, 13, 14, 23], a < 13 →
      Memory.read opening.fb a = Memory.read opening.fb a) ∧
    ∃ t, answersAfter 2 opening t := by
  refine ⟨opening_opensTransaction, fun _ _ _ => rfl, _, rfl, rfl, ?_⟩
  intro j h1 h2
  obtain rfl : j = 1 := by omega
  exact ⟨_, rfl, rfl⟩

theorem witness_BreachCannotBreakTheResponse :
    Invariant { busyMid with inputs := [frameWrite] } ∧
    ({ busyMid with inputs := [frameWrite] } : State).phase = .busy ∧
    ∀ c ∈ ({ busyMid with inputs := [frameWrite] } : State).inputs, c.rst = false :=
  ⟨busyMid_invariant.withInputs _, rfl, by intro c hc; rw [List.mem_singleton.1 hc]; rfl⟩

theorem witness_ResetAbandonsTheTransaction :
    Invariant { busyMid with inputs := [resetInput, request 43] } ∧
    43 < 2 ^ ({ busyMid with inputs := [resetInput, request 43] } : State).lenW ∧
    ({ busyMid with inputs := [resetInput, request 43] } : State).inputs =
      resetInput :: request 43 :: [] ∧
    resetInput.rst = true ∧ (request 43).reqValid = true ∧ (request 43).reqLen = 43 ∧
    quietFor 43 [request 43] :=
  ⟨busyMid_invariant.withInputs _, by decide, rfl, rfl, rfl, rfl, by
    intro c hc
    rw [List.mem_singleton.1 hc]
    exact ⟨rfl, rfl⟩⟩

theorem witness_HandshakesArePaired :
    opening.phase = .idle ∧ (∀ c ∈ opening.inputs, c.rst = false) ∧
    ∃ t, Sys2Proof.core.run 2 opening = .next t :=
  ⟨rfl, by intro c hc; rw [List.mem_singleton.1 hc]; rfl, _, rfl⟩

/-- One whole transaction of three cycles. -/
theorem witness_RunIsFinishedWhenItEndsInIdle :
    ({ State.reset with inputs := [request 13, .quiet, ready] } : State).phase = .idle ∧
    (∃ t, Sys2Proof.core.run 3 { State.reset with inputs := [request 13, .quiet, ready] } =
      .next t ∧ t.phase = .idle) ∧
    countCycles State.abandons 3 { State.reset with inputs := [request 13, .quiet, ready] } = 0 :=
  ⟨rfl, ⟨_, rfl, rfl⟩, by decide⟩

theorem witness_PayloadGoesDownstreamOnlyOnOk :
    State.reset.phase ≠ .resp ∧
    (withInput (respWith 43 okResponse) resetInput).now.rst = true ∧
    (withInput (respWith 43 notUdpResponse) ready).rspStatus ≠ 0b000#3 ∧
    (Invariant (withInput (respWith 43 okResponse) ready) ∧
      (withInput (respWith 43 okResponse) ready).phase = .resp ∧
      (withInput (respWith 43 okResponse) ready).now.rst = false ∧
      (withInput (respWith 43 okResponse) ready).rspStatus = 0b000#3) :=
  ⟨by decide, rfl, by decide, resp_invariant.1, rfl, rfl, rfl⟩

/-- A payload on loan whose frame is left alone, and one whose frame is written. -/
theorem witness_PayloadLastsUntilTheFrameIsOverwritten :
    (∃ t, step busyLast = .next t ∧ busyLast.phase = .busy ∧ t.phase = .resp) ∧
    (∃ t, step (withInput (respWith 43 okResponse) ready) = .next t ∧
      (withInput (respWith 43 okResponse) ready).phase = .resp ∧
      (withInput (respWith 43 okResponse) ready).responseHandshake = true) ∧
    (∃ t, step (withInput State.reset frameWrite) = .next t) ∧
    (∀ w ∈ (withInput State.reset frameWrite).incoming,
      (⟨10, 4, true⟩ : Loan).offset + (⟨10, 4, true⟩ : Loan).length ≤ w.1) ∧
    (∃ w ∈ (withInput State.reset frameWrite).incoming,
      w.1 < (⟨42, 1, true⟩ : Loan).offset + (⟨42, 1, true⟩ : Loan).length) :=
  ⟨⟨_, rfl, rfl, by decide⟩, ⟨_, rfl, rfl, by decide⟩, ⟨_, rfl⟩, by decide, (14, 0x46#8), by decide,
    by decide⟩

theorem witness_ExtractScriptAppendsTheResult :
    Invariant State.reset ∧ State.reset.phase = .idle ∧ State.reset.inputs = [] ∧
    f43.length < 2 ^ State.reset.lenW :=
  ⟨reset_invariant, rfl, rfl, by decide⟩

end Sys2Proof.Tests
end

section
/-! SUPPORT. The invariant part by part: each named update of the state that a step is made of keeps it
(`Invariant.endCycle` and the lemmas after it), and so does every step. -/

namespace Sys2Proof.Machine

/-- The payloads on loan stay within FB while writes are noted. -/
theorem loans_fit_note {lenW : Nat} {ls : List Loan} (ws : List (Nat × Byte))
    (h : ∀ l ∈ ls, l.fits lenW) : ∀ l ∈ ls.map (Loan.note ws), l.fits lenW := by
  intro l hl
  obtain ⟨l', hl', rfl⟩ := List.mem_map.1 hl
  exact h l' hl'

theorem Invariant.wf_writes {s : State} (h : Invariant s) :
    Memory.wf (Memory.writes s.fb s.incoming) := Memory.wf_writes _ h.canonical

theorem Invariant.inside_writes {s : State} (h : Invariant s) :
    Memory.inside s.lenW (Memory.writes s.fb s.incoming) :=
  Memory.inside_writes h.inside fun _ hw => (State.mem_incoming.1 hw).2

/-- Outside BUSY the read port is at rest, so nothing that it has answered can go out of date. -/
theorem readPortOk_of_rest {s : State} (hp : s.rdPending = []) (hd : s.rdData = [])
    (hu : s.disturbed = false) : readPortOk s := by
  simp [readPortOk, State.issued, hp, hd, hu]

/-- Taking the cycle's inputs and writes, outside BUSY. -/
theorem Invariant.endCycle {s : State} (h : Invariant s) (hb : s.phase ≠ .busy) :
    Invariant s.endCycle where
  canonical := h.wf_writes
  inside := h.inside_writes
  registers := h.registers
  result := h.result
  readPort := by
    obtain ⟨hp, hd, hu⟩ := h.readPort.1 hb
    exact readPortOk_of_rest hp hd hu
  loans := loans_fit_note _ h.loans
  rdLat := h.rdLat
  lenW := h.lenW

/-- The reset edge, from any phase. -/
theorem Invariant.resetEdge_endCycle {s : State} (h : Invariant s) :
    Invariant s.endCycle.resetEdge where
  canonical := h.wf_writes
  inside := h.inside_writes
  registers := ⟨lowBits_lt _ _, Nat.two_pow_pos _, Nat.two_pow_pos _⟩
  result := ⟨by rfl, fun _ => ⟨rfl, rfl⟩, fun hp => absurd hp (by simp)⟩
  readPort := readPortOk_of_rest rfl rfl rfl
  loans := loans_fit_note _ h.loans
  rdLat := h.rdLat
  lenW := h.lenW

/-- The request handshake. -/
theorem Invariant.accepted {s : State} (h : Invariant s) (n : Nat) : Invariant (s.accepted n) where
  canonical := h.canonical
  inside := h.inside
  registers := ⟨lowBits_lt _ _, h.registers.2⟩
  result := ⟨h.result.1, h.result.2.1, fun hp => absurd hp (by simp)⟩
  readPort := readPortOk_of_rest rfl rfl rfl
  loans := h.loans
  rdLat := h.rdLat
  lenW := h.lenW

/-- A breach of the frame source's duty in BUSY: the answered bytes change, their addresses do not. -/
theorem Invariant.disturb {s : State} (h : Invariant s) (hb : s.phase = .busy) :
    Invariant s.disturb where
  canonical := h.canonical
  inside := h.inside
  registers := h.registers
  result := h.result
  readPort := by
    obtain ⟨-, hnodup, hmem, hdue, -⟩ := h.readPort
    have hissued : s.disturb.issued = s.issued := by simp [State.issued, Function.comp_def]
    exact ⟨fun hn => absurd hb hn, hissued ▸ hnodup, hissued ▸ hmem, hdue,
      fun hu => absurd hu (by simp)⟩
  loans := h.loans
  rdLat := h.rdLat
  lenW := h.lenW

theorem Invariant.noteDuty {s : State} (h : Invariant s) (c : PortIn) :
    Invariant (s.noteDuty c) := by
  rcases s.noteDuty_cases c with ⟨hb, -, he⟩ | ⟨-, he⟩ <;> rw [he]
  · exact h.disturb hb
  · exact h

/-- The cycle of BUSY up to the realisation's move. -/
theorem Invariant.busyCycle {s : State} (h : Invariant s) (hb : s.phase = .busy) :
    Invariant s.busyCycle := by
  obtain ⟨hphase, hlenR, -, -, -, hstatus, hdetail, hoffset, hlength, hfb, -, -, -, hrdLat, hlenW,
    hloans⟩ := s.busyCycle_keeps
  exact {
    canonical := hfb ▸ h.wf_writes
    inside := by rw [hfb, hlenW]; exact h.inside_writes
    registers := by simpa only [registersFit, hlenR, hoffset, hlength, hlenW] using h.registers
    result := by
      obtain ⟨hlegal, hzero, -⟩ := h.result
      rw [resultOk, hstatus, hdetail, hoffset, hlength, hphase, hb]
      exact ⟨hlegal, hzero, fun hp => nomatch hp⟩
    readPort := State.busyCycle_readPortOk hb h.readPort
    loans := by rw [hloans, hlenW]; exact loans_fit_note _ h.loans
    rdLat := hrdLat ▸ h.rdLat
    lenW := hlenW ▸ h.lenW }

/-- The schedule is no part of the invariant. -/
theorem Invariant.popMove {s : State} (h : Invariant s) : Invariant s.popMove where
  canonical := h.canonical
  inside := h.inside
  registers := h.registers
  result := h.result
  readPort := h.readPort
  loans := h.loans
  rdLat := h.rdLat
  lenW := h.lenW

theorem State.issueRead_issued (a : Nat) (s : State) :
    (s.issueRead a).issued = s.issued ++ [a] := by
  simp [State.issued]

/-- A read that the block may issue (rules R43 and R44). -/
theorem Invariant.issueRead {s : State} {a : Nat} (h : Invariant s) (hb : s.phase = .busy)
    (ha : s.mayIssue a = true) : Invariant (s.issueRead a) where
  canonical := h.canonical
  inside := h.inside
  registers := h.registers
  result := h.result
  readPort := by
    obtain ⟨-, hnodup, hmem, hdue, hdata⟩ := h.readPort
    obtain ⟨hkey, hlt, hnew⟩ := State.mayIssue_iff.1 ha
    refine ⟨fun hn => absurd hb hn, ?_, ?_, ?_, hdata⟩
    · rw [State.issueRead_issued]
      exact hnodup.append (List.nodup_singleton a) (List.disjoint_singleton.2 hnew)
    · intro x hx
      rw [State.issueRead_issued, List.mem_append, List.mem_singleton] at hx
      rcases hx with hx | rfl
      · exact hmem x hx
      · exact ⟨hkey, hlt⟩
    · intro p hp
      rw [State.issueRead_rdPending, List.mem_append, List.mem_singleton] at hp
      rcases hp with hp | rfl
      · exact hdue p hp
      · exact ⟨h.rdLat, le_rfl⟩
  loans := h.loans
  rdLat := h.rdLat
  lenW := h.lenW

/-- The end of BUSY: an outcome leaves a response that fits the frame. -/
theorem Invariant.concludes {s t : State} (h : Invariant s) (hc : Concludes s t) : Invariant t := by
  obtain ⟨et, v, p, r, hfits, rfl⟩ := hc
  have hresponse : ((((s.latchEthType et).latchVihl v).latchProto p).concluded r).response = r :=
    State.concluded_response hfits h.registers.1
  obtain ⟨-, -, hoffset, hlength⟩ := Response.mk.inj hresponse
  exact {
    canonical := h.canonical
    inside := h.inside
    registers := ⟨h.registers.1, lowBits_lt _ _, lowBits_lt _ _⟩
    result := by
      refine ⟨hfits.1, fun hs => ?_, fun _ => ?_⟩
      · rw [hoffset, hlength]
        exact hfits.2.1 hs
      · rw [hresponse]
        exact hfits
    readPort := readPortOk_of_rest rfl rfl rfl
    loans := h.loans
    rdLat := h.rdLat
    lenW := h.lenW }

/-- In RESP the payload that a response handshake would hand downstream lies in FB, past the headers. -/
theorem Invariant.newLoans_fit {s : State} (h : Invariant s) (hr : s.phase = .resp) :
    ∀ l ∈ s.newLoans, l.fits s.lenW := by
  intro l hl
  unfold State.newLoans at hl
  split at hl
  next hok =>
    rw [List.mem_singleton.1 hl]
    have hfits : responseFits s.lenR s.vihl s.response := h.result.2.2 hr
    obtain ⟨hihl, hoffset, hlength, hend⟩ := hfits.2.2 hok
    have hlen := h.registers.1
    simp only [State.response] at hoffset hlength hend
    simp only [Loan.fits]
    omega
  next => cases hl

/-- The response handshake. -/
theorem Invariant.delivered {s : State} (h : Invariant s) (hr : s.phase = .resp) :
    Invariant s.delivered where
  canonical := h.canonical
  inside := h.inside
  registers := h.registers
  result := ⟨h.result.1, h.result.2.1, fun hp => absurd hp (by simp)⟩
  readPort := by
    obtain ⟨hp, hd, hu⟩ := h.readPort.1 (by rw [hr]; decide)
    exact readPortOk_of_rest hp hd hu
  loans := fun l hl => (List.mem_append.1 hl).elim (h.loans l) (h.newLoans_fit hr l)
  rdLat := h.rdLat
  lenW := h.lenW

/-- Every step keeps the invariant. -/
theorem Invariant.kept_by_step {s t : State} (h : Invariant s) (hst : step s = .next t) :
    Invariant t := by
  have hidle : s.phase = .idle → Invariant s.endCycle := fun hp => h.endCycle (by rw [hp]; decide)
  have hresp : s.phase = .resp → Invariant s.endCycle := fun hp => h.endCycle (by rw [hp]; decide)
  have hbusy : s.phase = .busy → Invariant s.busyCycle.popMove := fun hp => (h.busyCycle hp).popMove
  cases step_cases hst with
  | reset _ ht => exact ht ▸ h.resetEdge_endCycle
  | idle _ hp _ ht => exact ht ▸ hidle hp
  | accept _ hp _ ht => exact ht ▸ ((hidle hp).accepted _).noteDuty _
  | read _ hp a hm ht =>
    have hb : s.busyCycle.popMove.phase = .busy := s.busyCycle_keeps.1.trans hp
    have hmay : s.busyCycle.mayIssue a = true := State.mayIssue_of_plan hm
    exact ht ▸ (hbusy hp).issueRead hb hmay
  | wait _ hp _ ht => exact ht ▸ hbusy hp
  | finish _ hp _ _ hc => exact (hbusy hp).concludes hc
  | hold _ hp _ ht => exact ht ▸ hresp hp
  | deliver _ hp _ _ ht => exact ht ▸ (hresp hp).delivered hp

/-- Settles O45: each case of `step_cases` is made of updates that keep the invariant. -/
theorem invariantKeptByEveryStep : Obligations.InvariantKeptByEveryStep :=
  fun _ _ => Invariant.kept_by_step

/-- Settles O44: FB and the loans are empty, the read port is at rest, and the codes are those of
`OK` and `NONE`. -/
theorem invariantAtReset : Obligations.InvariantAtReset where
  canonical := Memory.wf_nil
  inside := fun _ hc => nomatch hc
  registers := by unfold registersFit; decide
  result := ⟨by decide, by decide, fun hp => nomatch hp⟩
  readPort := readPortOk_of_rest rfl rfl rfl
  loans := fun _ hl => nomatch hl
  rdLat := le_rfl
  lenW := by decide

end Sys2Proof.Machine
end

section
/-! SUPPORT. What an edge leaves unchanged: the frame of a step (FB but for the frame source's writes, and
the parameters) and the frame of an instruction. -/

namespace Sys2Proof.Machine

/-- What every step keeps, and what it does to FB: it takes the frame source's writes and no others
(rules R10 and R41). -/
theorem step_frame {s t : State} (h : step s = .next t) :
    t.fb = Memory.writes s.fb s.incoming ∧ t.lenW = s.lenW ∧ t.rdLat = s.rdLat := by
  have kb := s.busyCycle_keeps
  cases step_cases h with
  | reset _ ht => simp [ht]
  | idle _ _ _ ht => simp [ht]
  | accept _ _ _ ht => simp [ht, State.noteDuty_keeps]
  | read _ _ a _ ht => simp [ht, kb]
  | wait _ _ _ ht => simp [ht, kb]
  | finish _ _ _ _ hc => obtain ⟨_, _, _, _, -, rfl⟩ := hc; simp [kb]
  | hold _ _ _ ht => simp [ht]
  | deliver _ _ _ _ ht => simp [ht]

/-- A run of at least one cycle that answers begins with a step that does. -/
theorem run_succ_cases {s t : State} {k : Nat} (h : Sys2Proof.core.run (k + 1) s = .next t) :
    ∃ u, step s = .next u ∧ Sys2Proof.core.run k u = .next t := by
  by_cases hs : ∃ u, step s = .next u
  · obtain ⟨u, hu⟩ := hs
    exact ⟨u, hu, run_succ k hu ▸ h⟩
  · exact absurd h (run_stops k (not_exists.1 hs) t)

/-- Settles O38: `step_frame`, and writes elsewhere leave an address alone. -/
theorem onlyTheFrameSourceWritesFB : Obligations.OnlyTheFrameSourceWritesFB := by
  refine ⟨fun s t h => (step_frame h).1, fun s w => State.mem_incoming, fun s t a h hw => ?_⟩
  rw [(step_frame h).1]
  exact Memory.read_writes_other fun w hm => hw w (State.mem_incoming.1 hm).1

/-- Settles O39, by induction on the number of cycles. -/
theorem parametersNeverChange : Obligations.ParametersNeverChange := by
  intro k
  induction k with
  | zero =>
    intro s t h
    cases h
    exact ⟨rfl, rfl⟩
  | succ k ih =>
    intro s t h
    obtain ⟨u, hu, hrun⟩ := run_succ_cases h
    obtain ⟨hlenW, hrdLat⟩ := (step_frame hu).2
    obtain ⟨hlenW', hrdLat'⟩ := ih u t hrun
    exact ⟨hlenW'.trans hlenW, hrdLat'.trans hrdLat⟩

/-- Settles O18: an instruction has no effect, opens a transaction, or concludes one (`exec_cases`). -/
theorem instructionsLeaveTheRestAlone : Obligations.InstructionsLeaveTheRestAlone := by
  intro i s t h
  rcases exec_cases h with rfl | ⟨-, n, rfl, rfl⟩ | ⟨-, hi, et, v, p, r, -, rfl⟩
  · exact ⟨fun _ => rfl, rfl, rfl, rfl, rfl, rfl, rfl, rfl, fun _ => ⟨rfl, rfl, rfl, rfl, rfl⟩,
      fun _ => rfl⟩
  · exact ⟨fun _ => rfl, rfl, rfl, rfl, rfl, rfl, rfl, rfl, fun _ => ⟨rfl, rfl, rfl, rfl, rfl⟩,
      fun ho => absurd ho (by simp [Instr.isOutcome])⟩
  · exact ⟨fun _ => rfl, rfl, rfl, rfl, rfl, rfl, rfl, rfl, fun ho => absurd hi (by simp [ho]),
      fun _ => rfl⟩

end Sys2Proof.Machine
end

section
/-! SUPPORT. The encoder's key and length read back: the table selects the encoded row. -/

namespace Sys2Proof

/-- A word of 16 bits is its two bytes. -/
theorem append_bytes (et : BitVec 16) : et.extractLsb' 8 8 ++ et.extractLsb' 0 8 = et := by
  rw [BitVec.extractLsb'_append_extractLsb'_eq_extractLsb' (by rfl)]
  exact BitVec.extractLsb'_eq_self

/-- The table selects the row whose key the encoder wrote, for every length that the row fits. -/
theorem decodeKey_encodeKey {i : Instr} {lenW len : Nat} {b12 b13 b14 b23 : Byte}
    (hk : encodeKey i = [b12, b13, b14, b23]) (hw : i.wellFormed lenW = true)
    (hf : i.fitsLength len = true) : decodeKey len (makeKey b12 b13 b14 b23) = i := by
  have ipv4 : ¬ (0x08#8 ++ 0x00#8 ≠ 0x0800#16) := by decide
  have version4 : ¬ (versionIpv4 ≠ 4#4) := by decide
  have udp : ¬ (protoUdp ≠ 17#8) := by decide
  rw [decodeKey_chain]
  simp only [keyEthType_makeKey, keyVersion_makeKey, keyIhl_makeKey, keyProto_makeKey]
  cases i <;>
    simp only [encodeKey, List.cons.injEq, and_true, reduceCtorEq, Instr.wellFormed,
      Instr.fitsLength, decide_eq_true_eq, Bool.and_eq_true, bne_iff_ne] at hk hw hf <;>
    obtain ⟨rfl, rfl, rfl, rfl⟩ := hk
  case rejEthTruncated => rw [if_pos hf]
  case rejBadEthertype et => rw [append_bytes, if_neg (by omega), if_pos hw]
  all_goals rw [if_neg (by omega), if_neg ipv4]
  case rejIpv4Truncated => rw [if_pos hf.2]
  all_goals
    rw [if_neg (by omega), (version_ihl_of_append _ _).1, (version_ihl_of_append _ _).2]
  case rejBadVersion version ihl => rw [if_pos hw]
  all_goals rw [if_neg version4]
  case rejBadIhl ihl => rw [if_pos hw]
  all_goals rw [if_neg (by omega)]
  case rejIpv4OptionsTruncated ihl => rw [if_pos hf.2]
  all_goals rw [if_neg (by omega)]
  case rejNotUdp ihl proto => rw [if_pos hw.2]
  all_goals rw [if_neg udp]
  case rejUdpHdrTruncated ihl => rw [if_pos hf.2]
  all_goals rw [if_neg (by omega)]
  case rejEmptyPayload ihl => rw [if_pos hf]
  case accept ihl => rw [if_neg (by omega)]

/-- Two bytes side by side are their pair (rule R45). -/
theorem toNat_append_bytes (hi lo : Byte) : (hi ++ lo).toNat = pair hi lo := by
  rw [pair, BitVec.toNat_append, Nat.shiftLeft_eq, Nat.mul_comm,
    ← Nat.two_pow_add_eq_or_of_lt lo.isLt]

/-- An outcome's code is its four key bytes and the shortfall. -/
theorem encode_of_isOutcome (len : Nat) {i : Instr} (h : i.isOutcome = true) :
    ∃ b12 b13 b14 b23, encodeKey i = [b12, b13, b14, b23] ∧
      encode len i = [b12, b13, b14, b23] ++ pairBytes (maxFrameLen 16 - len) := by
  cases i with
  | extract n => cases h
  | _ => exact ⟨_, _, _, _, rfl, rfl⟩

/-- The shortfall that the encoder writes gives the frame's length back. -/
theorem decode_key_pairBytes {len : Nat} (hl : len ≤ maxFrameLen 16) (b12 b13 b14 b23 : Byte) :
    decode ([b12, b13, b14, b23] ++ pairBytes (maxFrameLen 16 - len)) =
      .ok (decodeKey len (makeKey b12 b13 b14 b23)) := by
  obtain ⟨hi, lo, hp, hn⟩ := pairBytes_eq (maxFrameLen 16 - len) (by simp only [maxFrameLen]; omega)
  simp only [hp, List.cons_append, List.nil_append, decode, hn]
  rw [Nat.sub_sub_self hl]

/-- A request's two bytes give its length back. -/
theorem decode_pairBytes {n : Nat} (h : n < 65536) : decode (pairBytes n) = .ok (.extract n) := by
  obtain ⟨hi, lo, hp, hn⟩ := pairBytes_eq n h
  rw [hp, decode, decodeRequest, toNat_append_bytes, hn]

/-- The word on `req_len` gives the length back, for every `LEN_W`. -/
theorem decodeRequest_encodeRequest {lenW n : Nat} (h : n < 2 ^ lenW) :
    decodeRequest (encodeRequest lenW n) = .extract n := by
  rw [decodeRequest, encodeRequest, BitVec.toNat_ofNat, Nat.mod_eq_of_lt h]

/-- Settles O2: a request's two bytes are its length, and an outcome's key selects its row for the
length that the shortfall gives back. -/
theorem decodeReadsBackEncode : Obligations.DecodeReadsBackEncode := by
  refine ⟨fun i len hw hf hl => ?_, fun lenW n hw =>
    decodeRequest_encodeRequest (of_decide_eq_true hw)⟩
  cases ho : i.isOutcome with
  | true =>
    obtain ⟨b12, b13, b14, b23, hk, he⟩ := encode_of_isOutcome len ho
    rw [he, decode_key_pairBytes hl, decodeKey_encodeKey hk hw hf]
  | false =>
    cases i with
    | extract n => exact decode_pairBytes (of_decide_eq_true hw)
    | _ => cases ho

end Sys2Proof
end

section
/-! SUPPORT. BUSY comes to its end: what an edge of BUSY does, the bound that every cycle lowers, and the
response that the selected row leaves. -/

namespace Sys2Proof.Machine

/-! ### The three edges of BUSY -/

/-- The edge of a BUSY cycle without reset, by the realisation's move. -/
theorem step_busy {s : State} (hr : s.now.rst = false) (hb : s.phase = .busy) :
    (∃ a, s.busyCycle.plan = .issue a ∧ step s = .next (s.busyCycle.popMove.issueRead a)) ∨
    (s.busyCycle.plan = .wait ∧ step s = .next s.busyCycle.popMove) ∨
    (s.busyCycle.plan = .finish ∧ ∃ t, step s = .next t ∧
      exec (decodeKey s.busyCycle.lenR (sampledKey s.busyCycle.rdData))
        s.busyCycle.popMove = .next t ∧ Concludes s.busyCycle.popMove t) := by
  cases hm : s.busyCycle.plan with
  | issue a => exact .inl ⟨a, rfl, by simp [step, State.edge, hr, hb, busyEdge, hm]⟩
  | wait => exact .inr (.inl ⟨rfl, by simp [step, State.edge, hr, hb, busyEdge, hm]⟩)
  | finish => exact .inr (.inr ⟨rfl, step_finish hr hb hm⟩)

/-! ### The bound on BUSY -/

/-- How many bytes of the read set the transaction has not asked for yet. -/
def State.unissued (s : State) : Nat := (keyAddrs.filter (fun a => !s.issued.contains a)).length

theorem busyBound_eq (s : State) :
    busyBound s = s.sched.length + s.unissued * (s.rdLat + 1) + pendingCycles s + 1 := rfl

/-- The cycle takes one from the bound for each read outstanding. -/
theorem busyBound_busyCycle {s : State} (h : readPortOk s) :
    busyBound s.busyCycle + s.rdPending.length = busyBound s := by
  obtain ⟨-, -, -, hdue, -⟩ := h
  have hunissued : s.busyCycle.unissued = s.unissued := by
    simp only [State.unissued, List.contains_eq_mem, s.busyCycle_issued.mem_iff]
  have hpending : pendingCycles s.busyCycle + s.rdPending.length = pendingCycles s := by
    rw [pendingCycles, s.busyCycle_rdPending]
    exact sum_due s.rdPending fun p hp => (hdue p hp).1
  simp only [busyBound_eq, hunissued, s.busyCycle_keeps]
  omega

/-- The read's `RD_LAT` cycles and its own are paid for by the byte that is no longer to be asked for. -/
theorem busyBound_issueRead {s : State} {a : Nat} (ha : s.mayIssue a = true) :
    busyBound (s.issueRead a) < busyBound s := by
  obtain ⟨hkey, -, hnew⟩ := State.mayIssue_iff.1 ha
  have hunissued : (s.issueRead a).unissued + 1 ≤ s.unissued :=
    unissued_lt hkey hnew (State.issueRead_issued a s)
  have hpending : pendingCycles (s.issueRead a) = pendingCycles s + s.rdLat := by
    simp [pendingCycles]
  have hmul := Nat.mul_le_mul_right (s.rdLat + 1) hunissued
  rw [Nat.add_mul] at hmul
  simp only [busyBound_eq, hpending, State.issueRead_sched, State.issueRead_rdLat]
  omega

theorem busyBound_popMove (s : State) :
    busyBound s.popMove + s.sched.length = busyBound s + (s.sched.length - 1) := by
  have hrest : s.popMove.unissued = s.unissued ∧ pendingCycles s.popMove = pendingCycles s :=
    ⟨rfl, rfl⟩
  simp only [busyBound_eq, hrest, State.popMove_sched, State.popMove_rdLat, List.length_tail]
  omega

/-- A cycle of BUSY that issues a read lowers the bound. -/
theorem busyBound_read_lt {s : State} {a : Nat} (h : readPortOk s)
    (hm : s.busyCycle.plan = .issue a) :
    busyBound (s.busyCycle.popMove.issueRead a) < busyBound s := by
  have hmay : s.busyCycle.mayIssue a = true := State.mayIssue_of_plan hm
  have hissue := busyBound_issueRead (s := s.busyCycle.popMove) hmay
  have hpop := busyBound_popMove s.busyCycle
  have hcycle := busyBound_busyCycle h
  omega

/-- A cycle of BUSY that waits lowers the bound: it uses up a scheduled move, or a read is outstanding
and comes nearer. -/
theorem busyBound_wait_lt {s : State} (h : readPortOk s) (hm : s.busyCycle.plan = .wait) :
    busyBound s.busyCycle.popMove < busyBound s := by
  have hpop := busyBound_popMove s.busyCycle
  have hcycle := busyBound_busyCycle h
  by_cases hs : s.busyCycle.sched = []
  · have hpending : s.rdPending ≠ [] := by
      intro hnil
      apply State.rdPending_of_wait hs hm
      rw [s.busyCycle_rdPending, hnil]
      rfl
    have := List.length_pos_iff.2 hpending
    omega
  · have := List.length_pos_iff.2 hs
    omega

/-! ### The response of the selected row -/

/-- What the end of BUSY leaves of the transaction. -/
theorem Concludes.keeps {s t : State} (h : Concludes s t) :
    t.phase = .resp ∧ t.lenR = s.lenR ∧ t.log = s.log ∧ t.payloadIntact = !s.disturbed := by
  obtain ⟨_, _, _, _, -, rfl⟩ := h
  exact ⟨rfl, rfl, rfl, rfl⟩

/-- A rejecting row that takes its effect leaves the response of its detail. -/
theorem State.concludeIf_rejected_response {s u t : State} {c : Bool} {d : Detail}
    (h : s.concludeIf c (u.rejected d) = .next t) (hne : t.phase ≠ s.phase) :
    t.response = (Result.reject d).bits := by
  rcases State.concludeIf_cases h with ⟨rfl, -, -⟩ | rfl
  · simp [State.response, State.rejected, Result.reject, Result.bits]
  · exact absurd rfl hne

/-- The accept row leaves its descriptor. -/
theorem execAccept_response {ihl : BitVec 4} {s t : State} (hl : s.lenR < 2 ^ s.lenW)
    (h : execAccept ihl s = .next t) (hne : t.phase ≠ s.phase) :
    t.response = (Result.accept (payloadOffset ihl) (s.lenR - payloadOffset ihl)).bits := by
  rcases State.concludeIf_cases h with ⟨rfl, -, hc⟩ | rfl
  · obtain ⟨hihl, hlen⟩ := of_decide_eq_true hc
    exact State.concluded_response (responseFits_accept hihl hlen) hl
  · exact absurd rfl hne

/-- An outcome that ends BUSY leaves the response of its row. -/
theorem exec_response {i : Instr} {s t : State} (ho : i.isOutcome = true)
    (hl : s.lenR < 2 ^ s.lenW) (h : exec i s = .next t) (hne : t.phase ≠ s.phase) :
    t.response = (rowResult s.lenR i).bits := by
  cases i with
  | extract n => cases ho
  | accept ihl => exact execAccept_response hl h hne
  | _ => exact State.concludeIf_rejected_response h hne

/-- The table selects an outcome, never a request (rule R68). -/
theorem decodeKey_isOutcome (len : Nat) (k : BitVec 32) : (decodeKey len k).isOutcome = true := by
  rw [decodeKey_chain]
  split_ifs <;> rfl

/-- The undisturbed end of BUSY answers `Extract` of FB: every byte that the row depends on has been
read, and it is FB's. -/
theorem finish_response {s t : State} (h : Invariant s) (hd : s.disturbed = false)
    (hm : s.mayFinish = true)
    (he : exec (decodeKey s.lenR (sampledKey s.rdData)) s = .next t) (hne : t.phase ≠ s.phase) :
    t.response = (Extract s.lenR (Memory.read s.fb)).bits := by
  obtain ⟨-, -, -, -, hdata⟩ := h.readPort
  have hsampled : ∀ a b, sampled s.rdData a = some b → Memory.read s.fb a = b :=
    fun a b hab => (hdata hd (a, b) (sampled_mem hab)).symm
  rw [exec_response (decodeKey_isOutcome _ _) h.registers.1 he hne, Extract_eq_rowResult,
    sampledKey_eq, decodeKey_of_nextRead_none (State.mayFinish_iff.1 hm).1 hsampled]

end Sys2Proof.Machine
end

section
/-! SUPPORT. A transaction that the neighbours leave alone: each cycle of BUSY keeps it so and comes nearer
to the end, and the end answers `Extract`. -/

namespace Sys2Proof.Machine

/-! ### Neighbours that keep their duty -/

theorem quietFor.now {len : Nat} {s : State} (h : quietFor len s.inputs) :
    s.now.rst = false ∧ breaksDuty len s.now = false := by
  rcases s.now_cases with hq | hm
  · rw [hq]; exact ⟨rfl, rfl⟩
  · exact h _ hm

theorem quietFor.tail {len : Nat} {cs : List PortIn} (h : quietFor len cs) : quietFor len cs.tail :=
  fun c hc => h c (List.mem_of_mem_tail hc)

/-! ### Runs to the response -/

/-- The response comes at the next edge. -/
theorem answersAfter_one {s t : State} (h : step s = .next t) (ht : t.phase = .resp) :
    answersAfter 1 s t :=
  ⟨run_succ 0 h, ht, fun j h1 h2 => by omega⟩

/-- A cycle that leaves the block in BUSY comes before the response. -/
theorem answersAfter_succ {k : Nat} {s u t : State} (h : step s = .next u) (hu : u.phase = .busy)
    (ha : answersAfter k u t) : answersAfter (k + 1) s t := by
  obtain ⟨hrun, ht, hbefore⟩ := ha
  refine ⟨(run_succ k h).trans hrun, ht, fun j h1 h2 => ?_⟩
  obtain ⟨j, rfl⟩ := Nat.exists_eq_add_of_le' h1
  rw [run_succ j h]
  rcases Nat.eq_zero_or_pos j with rfl | hj
  · exact ⟨u, rfl, hu⟩
  · exact hbefore j hj (by omega)

/-! ### An undisturbed transaction -/

/-- The block is in BUSY, undisturbed so far, and the neighbours will leave the frame alone. -/
structure Undisturbed (s : State) : Prop where
  invariant : Invariant s
  busy : s.phase = .busy
  intact : s.disturbed = false
  quiet : quietFor s.lenR s.inputs

/-- The state `t` holds the answer to the transaction running in `s`. -/
structure Answers (s t : State) : Prop where
  lenR : t.lenR = s.lenR
  log : t.log = s.log
  payloadIntact : t.payloadIntact = true
  response : t.response = (Extract s.lenR (Memory.read s.fb)).bits

/-- The undisturbed cycle leaves the transaction undisturbed, and the frame as it was. -/
theorem Undisturbed.busyCycle {s : State} (h : Undisturbed s) :
    Undisturbed s.busyCycle.popMove ∧ s.busyCycle.lenR = s.lenR ∧ s.busyCycle.log = s.log ∧
      ∀ a, a < s.lenR → Memory.read s.busyCycle.fb a = Memory.read s.fb a := by
  obtain ⟨hi, hb, hd, hq⟩ := h
  obtain ⟨-, hduty⟩ := hq.now
  have kb := s.busyCycle_keeps
  have hlenR : s.busyCycle.lenR = s.lenR := kb.2.1
  refine ⟨⟨(hi.busyCycle hb).popMove, kb.1.trans hb, ?_, ?_⟩, hlenR, by simp only [kb], ?_⟩
  · exact (State.busyCycle_disturbed_eq hduty).trans hd
  · simp only [State.popMove_lenR, State.popMove_inputs, kb]
    exact hq.tail
  · intro a ha
    simp only [kb]
    exact Memory.read_writes_outside (State.writesFrame_incoming hduty) ha

/-- A cycle of an undisturbed transaction answers it, or leaves it undisturbed and nearer to its end with
the frame as it was. -/
theorem Undisturbed.step_cases {s : State} (h : Undisturbed s) :
    ∃ t, step s = .next t ∧
      (t.phase = .resp ∧ Answers s t ∨
        Undisturbed t ∧ busyBound t < busyBound s ∧ t.lenR = s.lenR ∧ t.log = s.log ∧
          ∀ a, a < s.lenR → Memory.read t.fb a = Memory.read s.fb a) := by
  obtain ⟨hcycle, hlenR, hlog, hframe⟩ := h.busyCycle
  have hport := h.invariant.readPort
  rcases step_busy h.quiet.now.1 h.busy with ⟨a, hm, hs⟩ | ⟨hm, hs⟩ | ⟨hm, t, hs, he, hc⟩
  · have hmay : s.busyCycle.mayIssue a = true := State.mayIssue_of_plan hm
    exact ⟨_, hs, .inr ⟨⟨hcycle.invariant.issueRead hcycle.busy hmay, hcycle.busy, hcycle.intact,
      hcycle.quiet⟩, busyBound_read_lt hport hm, hlenR, hlog, hframe⟩⟩
  · exact ⟨_, hs, .inr ⟨hcycle, busyBound_wait_lt hport hm, hlenR, hlog, hframe⟩⟩
  · obtain ⟨hresp, hlenR', hlog', hintact⟩ := hc.keeps
    have hmay : s.busyCycle.mayFinish = true := State.mayFinish_of_plan hm
    have hresponse := finish_response hcycle.invariant hcycle.intact hmay he
      (by rw [hresp, hcycle.busy]; decide)
    refine ⟨t, hs, .inl ⟨hresp, hlenR'.trans hlenR, hlog'.trans hlog, ?_, ?_⟩⟩
    · rw [hintact, hcycle.intact]; rfl
    · rw [hresponse, State.popMove_lenR, hlenR, State.popMove_fb]
      exact congrArg Result.bits (Extract_congr fun a _ ha => hframe a ha)

/-- An undisturbed transaction is answered within the bound. -/
theorem Undisturbed.answers {s : State} (h : Undisturbed s) :
    ∃ k t, answersAfter k s t ∧ 1 ≤ k ∧ k ≤ busyBound s ∧ Answers s t := by
  induction hn : busyBound s using Nat.strong_induction_on generalizing s with
  | _ n ih =>
    subst hn
    obtain ⟨u, hstep, ⟨hresp, ha⟩ | ⟨hu, hlt, hlenR, hlog, hframe⟩⟩ := h.step_cases
    · exact ⟨1, u, answersAfter_one hstep hresp, le_rfl, Nat.le_add_left 1 _, ha⟩
    · obtain ⟨k, t, hk, -, hle, ha⟩ := ih _ hlt hu rfl
      refine ⟨k + 1, t, answersAfter_succ hstep hu.busy hk, by omega, by omega,
        ha.lenR.trans hlenR, ha.log.trans hlog, ha.payloadIntact, ?_⟩
      rw [ha.response, hlenR]
      exact congrArg Result.bits (Extract_congr fun a _ hlt => hframe a hlt)

/-! ### From the request on -/

/-- The request handshake opens an undisturbed transaction with a known bound, over the frame that stood
in FB. -/
theorem opensTransaction.accept {n : Nat} {s : State} (h : opensTransaction n s) :
    ∃ u, step s = .next u ∧ Undisturbed u ∧ u.lenR = n ∧ u.log = s.log ∧
      busyBound u = s.sched.length + 4 * (s.rdLat + 1) + 1 ∧
      u.inputs = s.inputs.tail ∧ u.fb = Memory.writes s.fb s.incoming ∧
      ∀ a, a < n → Memory.read u.fb a = Memory.read s.fb a := by
  obtain ⟨hi, hp, hn, c, cs, hcs, hvalid, hlen, hq⟩ := h
  have hnow : s.now = c := by simp [State.now, hcs]
  obtain ⟨hr, hduty⟩ := hq c (by simp)
  have hlenR : (s.endCycle.accepted n).lenR = n := lowBits_eq hn
  have hstep : step s = .next (s.endCycle.accepted n) := by
    rw [step_request (hnow ▸ hr) hp (hnow ▸ hvalid), hnow, hlen,
      State.noteDuty_eq_self (.inr (by rw [hlenR]; exact hduty))]
  refine ⟨_, hstep, ⟨(hi.endCycle (by rw [hp]; decide)).accepted n, rfl, rfl, ?_⟩, hlenR, rfl, ?_,
    rfl, rfl, fun a ha => ?_⟩
  · rw [hlenR, State.accepted_inputs, State.endCycle_inputs, hcs]
    exact hq.tail
  · rw [busyBound_eq]
    simp [State.unissued, State.issued, keyAddrs_eq, pendingCycles]
  · exact Memory.read_writes_outside (State.writesFrame_incoming (hnow ▸ hduty)) ha

/-- Settles O48: the handshake's cycle, and then an undisturbed transaction. -/
theorem everyTransactionAnswersExtract : Obligations.EveryTransactionAnswersExtract := by
  intro n s h
  obtain ⟨u, hstep, hu, hlenR, hlog, hbound, -, -, hframe⟩ := h.accept
  obtain ⟨k, t, hk, h1, hle, ha⟩ := hu.answers
  refine ⟨k + 1, t, answersAfter_succ hstep hu.busy hk, by omega, by omega, ha.lenR.trans hlenR,
    ha.log.trans hlog, ha.payloadIntact, ?_⟩
  rw [ha.response, hlenR]
  exact congrArg Result.bits (Extract_congr fun a _ hlt => hframe a hlt)

end Sys2Proof.Machine
end

section
/-! SUPPORT. A table word placed where the next step runs it: what decodes, and that the placed state is
about to run it. -/

namespace Sys2Proof.Machine

/-- The byte strings that decode, and what they decode to. -/
theorem decode_ok_cases {bs : List Byte} {i : Instr} (h : decode bs = .ok i) :
    (∃ hi lo, bs = [hi, lo] ∧ i = .extract (pair hi lo)) ∨
    (∃ b12 b13 b14 b23 hi lo, bs = [b12, b13, b14, b23, hi, lo] ∧
      i = decodeKey (maxFrameLen 16 - pair hi lo) (makeKey b12 b13 b14 b23)) := by
  unfold decode at h
  split at h
  · cases h
    exact .inl ⟨_, _, rfl, by rw [decodeRequest, toNat_append_bytes]⟩
  · cases h
    exact .inr ⟨_, _, _, _, _, _, rfl, rfl⟩
  · cases h

/-- The selected row fits the length that selected it. -/
theorem decodeKey_fitsLength (len : Nat) (k : BitVec 32) :
    (decodeKey len k).fitsLength len = true := by
  rw [decodeKey_chain]
  split_ifs <;> simp only [Instr.fitsLength, decide_eq_true_eq] <;> omega

/-! ### A request -/

/-- The offered request is the next instruction. -/
theorem step_offering (n : Nat) (s : State) :
    ∃ t, step (s.offering n) = .next t ∧ exec (.extract n) (s.offering n).endCycle = .next t ∧
      t.phase = .busy := by
  refine ⟨(s.offering n).endCycle.accepted n, ?_, rfl, rfl⟩
  have hstep : step (s.offering n) =
      .next (((s.offering n).endCycle.accepted n).noteDuty (s.offering n).now) :=
    step_request rfl rfl rfl
  rw [hstep, State.noteDuty_eq_self (.inr rfl)]

/-! ### A key -/

/-- A key is its four bytes. -/
theorem makeKey_extract (k : BitVec 32) :
    makeKey (k.extractLsb' 24 8) (k.extractLsb' 16 8) (k.extractLsb' 8 8)
      (k.extractLsb' 0 8) = k := by
  rw [makeKey, BitVec.extractLsb'_append_extractLsb'_eq_extractLsb' (by rfl),
    BitVec.extractLsb'_append_extractLsb'_eq_extractLsb' (by rfl),
    BitVec.extractLsb'_append_extractLsb'_eq_extractLsb' (by rfl)]
  exact BitVec.extractLsb'_eq_self

/-- With every key byte within the frame answered, no read is needed. -/
theorem nextRead_keyBytes (len : Nat) (k : BitVec 32) :
    nextRead len (sampled ((keyBytes k).filter (fun p => decide (p.1 < len)))) = none := by
  by_contra hne
  obtain ⟨a, ha⟩ := Option.ne_none_iff_exists'.1 hne
  obtain ⟨hkey, hlt, hnone⟩ := nextRead_some ha
  rw [sampled_filter, if_pos hlt] at hnone
  rcases mem_keyAddrs.1 hkey with rfl | rfl | rfl | rfl <;> cases hnone

/-- The answered key bytes select the row of the key. -/
theorem decodeKey_sampledKey_keyBytes (len : Nat) (k : BitVec 32) :
    decodeKey len (sampledKey ((keyBytes k).filter (fun p => decide (p.1 < len)))) =
      decodeKey len k := by
  have hbyte : ∀ a b, sampled ((keyBytes k).filter (fun p => decide (p.1 < len))) a = some b →
      (sampled (keyBytes k) a).getD 0 = b := by
    intro a b hab
    rw [sampled_filter] at hab
    split at hab
    · rw [hab]; rfl
    · cases hab
  rw [sampledKey_eq, decodeKey_of_nextRead_none (nextRead_keyBytes len k) hbyte]
  exact congrArg (decodeKey len) (makeKey_extract k)

/-- With nothing outstanding and no breach the cycle of BUSY answers nothing new. -/
theorem State.busyCycle_rdData {s : State} (hduty : breaksDuty s.lenR s.now = false)
    (hp : s.rdPending = []) : s.busyCycle.rdData = s.rdData := by
  have hnote : s.endCycle.noteDuty s.now = s.endCycle := State.noteDuty_eq_self (.inr hduty)
  simp [State.busyCycle, hnote, State.arriving, hp]

/-- The cycle of BUSY uses up no move: its edge does. -/
theorem State.busyCycle_sched (s : State) : s.busyCycle.sched = s.sched := by
  simp only [s.busyCycle_keeps]

/-- The placed key ends BUSY in the next cycle, with its own row. -/
theorem step_holdingKey (len : Nat) (k : BitVec 32) (s : State) :
    (s.holdingKey len k).busyCycle.popMove.phase = .busy ∧
    (s.holdingKey len k).busyCycle.popMove.lenR = len ∧
    ∃ t, step (s.holdingKey len k) = .next t ∧
      exec (decodeKey len k) (s.holdingKey len k).busyCycle.popMove = .next t ∧
      t.phase = .resp := by
  have kb := (s.holdingKey len k).busyCycle_keeps
  have hphase : (s.holdingKey len k).busyCycle.phase = .busy := kb.1
  have hlenR : (s.holdingKey len k).busyCycle.lenR = len := kb.2.1
  have hdata : (s.holdingKey len k).busyCycle.rdData =
      (keyBytes k).filter (fun p => decide (p.1 < len)) := State.busyCycle_rdData rfl rfl
  have hsched : (s.holdingKey len k).busyCycle.sched = .finish :: s.sched :=
    State.busyCycle_sched _
  have hmay : (s.holdingKey len k).busyCycle.mayFinish = true := by
    refine State.mayFinish_iff.2 ⟨?_, State.busyCycle_rdPending _⟩
    rw [State.needs, hlenR, hdata, nextRead_keyBytes]
  have hplan : (s.holdingKey len k).busyCycle.plan = .finish := by
    simp [State.plan, hsched, hmay]
  obtain ⟨t, hstep, hexec, hc⟩ := step_finish rfl rfl hplan
  rw [hlenR, hdata, decodeKey_sampledKey_keyBytes] at hexec
  exact ⟨hphase, hlenR, t, hstep, hexec, hc.keeps.1⟩

/-- Settles O26: a word that decodes is a request's or a key's, and either is the placed state's next
instruction. -/
theorem fetchWordIsTheNextInstruction : Obligations.FetchWordIsTheNextInstruction := by
  intro s nbits w i h
  have hdecode : decode (tableBytes nbits w) = .ok i := by
    unfold decodeTableWord at h
    cases hd : decode (tableBytes nbits w) with
    | ok j => rw [hd] at h; cases h; rfl
    | error e => rw [hd] at h; cases h
  rcases decode_ok_cases hdecode with
    ⟨hi, lo, hbytes, rfl⟩ | ⟨b12, b13, b14, b23, hi, lo, hbytes, rfl⟩
  · have hplaced : s.withFetchWord nbits w = s.offering (pair hi lo) := by
      rw [State.withFetchWord, hbytes, placeBytes]
    rw [hplaced]
    exact ⟨fun _ _ => ⟨rfl, step_offering _ s⟩, fun ho => nomatch ho⟩
  · have hplaced : s.withFetchWord nbits w =
        s.holdingKey (maxFrameLen 16 - pair hi lo) (makeKey b12 b13 b14 b23) := by
      rw [State.withFetchWord, hbytes, placeBytes]
    obtain ⟨hphase, hlenR, hnext⟩ :=
      step_holdingKey (maxFrameLen 16 - pair hi lo) (makeKey b12 b13 b14 b23) s
    rw [hplaced]
    refine ⟨fun ho => ?_, fun _ => ⟨hphase, ?_, hnext⟩⟩
    · rw [decodeKey_isOutcome] at ho; cases ho
    · rw [hlenR]; exact decodeKey_fitsLength _ _

end Sys2Proof.Machine
end

section
/-! SUPPORT. The script of rule R75, statement by statement: each runs as steps of the machine from a state
with no other inputs. -/

namespace Sys2Proof.Machine

/-! ### Runs -/

/-- A property that every step keeps, every run keeps. -/
theorem run_induction {P : State → Prop} (hP : ∀ u v, P u → step u = .next v → P v) {k : Nat}
    {s t : State} (hs : P s) (h : Sys2Proof.core.run k s = .next t) : P t := by
  induction k generalizing s with
  | zero => cases h; exact hs
  | succ k ih =>
    obtain ⟨u, hu, hrun⟩ := run_succ_cases h
    exact ih (hP s u hs hu) hrun

theorem Invariant.kept_by_run {k : Nat} {s t : State} (h : Invariant s)
    (hrun : Sys2Proof.core.run k s = .next t) : Invariant t :=
  run_induction (fun _ _ => Invariant.kept_by_step) h hrun

/-- With no inputs to come FB stays as it is. -/
theorem run_fb_of_no_inputs {k : Nat} {s t : State} (h : s.inputs = [])
    (hrun : Sys2Proof.core.run k s = .next t) : t.inputs = [] ∧ t.fb = s.fb := by
  refine run_induction (P := fun u => u.inputs = [] ∧ u.fb = s.fb) ?_ ⟨h, rfl⟩ hrun
  rintro u v ⟨hu, hfb⟩ hstep
  have hincoming : u.incoming = [] := by simp [State.incoming, State.now, hu, PortIn.quiet]
  refine ⟨by rw [step_inputs hstep, hu]; rfl, ?_⟩
  rw [(step_frame hstep).1, hincoming]
  exact hfb

/-! ### WAIT -/

/-- After the last input every cycle is quiet, so feeding a quiet one changes nothing. -/
theorem feed_quiet {s : State} (h : s.inputs = []) : feed .quiet s = step s := by
  obtain ⟨⟩ := s
  subst h
  rfl

/-- `WAIT` runs the machine up to the response. -/
theorem waitCycles_of_run {k fuel : Nat} {s t : State} (hin : s.inputs = []) (hle : k ≤ fuel)
    (hrun : Sys2Proof.core.run k s = .next t) (ht : t.phase = .resp)
    (hbefore : ∀ j, j < k → ∃ u, Sys2Proof.core.run j s = .next u ∧ u.phase ≠ .resp) :
    waitCycles fuel s = .next t := by
  induction k generalizing fuel s with
  | zero =>
    cases hrun
    cases fuel with
    | zero => rfl
    | succ fuel => rw [waitCycles, if_pos ht]
  | succ k ih =>
    obtain ⟨fuel, rfl⟩ := Nat.exists_eq_add_of_le' (Nat.le_of_add_left_le hle)
    obtain ⟨u, hu, hrun'⟩ := run_succ_cases hrun
    obtain ⟨_, hs, hphase⟩ := hbefore 0 (Nat.succ_pos k)
    cases hs
    have hrest : waitCycles fuel u = .next t := by
      refine ih ?_ (by omega) hrun' fun j hj => ?_
      · rw [step_inputs hu, hin]; rfl
      · rw [← run_succ j hu]
        exact hbefore (j + 1) (by omega)
    rw [waitCycles, if_neg hphase, feed_quiet hin, hu]
    exact hrest

/-- `WAIT` within a transaction ends with its response. -/
theorem waitCycles_of_answersAfter {k fuel : Nat} {s t : State} (hin : s.inputs = [])
    (hb : s.phase = .busy) (hle : k ≤ fuel) (h : answersAfter k s t) :
    waitCycles fuel s = .next t := by
  obtain ⟨hrun, ht, hbefore⟩ := h
  refine waitCycles_of_run hin hle hrun ht fun j hj => ?_
  rcases Nat.eq_zero_or_pos j with rfl | hpos
  · exact ⟨s, rfl, by rw [hb]; decide⟩
  · obtain ⟨u, hu, hphase⟩ := hbefore j hpos hj
    exact ⟨u, hu, by rw [hphase]; decide⟩

/-! ### LOAD, REQ and TAKE -/

/-- The state with one more cycle of inputs to come. -/
def State.feeding (c : PortIn) (s : State) : State := { s with inputs := c :: s.inputs }

theorem feed_eq (c : PortIn) (s : State) : feed c s = step (s.feeding c) := rfl

/-- A cycle of IDLE with no request. -/
theorem step_idle {s : State} (hr : s.now.rst = false) (hp : s.phase = .idle)
    (hq : s.now.reqValid = false) : step s = .next s.endCycle := by
  simp [step, State.edge, hr, hp, hq]

/-- The response handshake, on a pair of codes that an extraction produces. -/
theorem step_deliver {s : State} (hr : s.now.rst = false) (hp : s.phase = .resp)
    (hq : s.now.rspReady = true) (hl : legalCodes s.resStatus s.resDetail = true) :
    step s = .next s.endCycle.delivered := by
  simp [step, State.edge, hr, hp, hq, deliverEdge, hl]

/-- `LOAD` in IDLE writes the bytes. -/
theorem load_run {s : State} {bytes : List Byte} (hi : Invariant s) (hp : s.phase = .idle)
    (hin : s.inputs = []) (hlen : bytes.length < 2 ^ s.lenW) :
    ∃ t, (Stmt.load bytes).run s = .next t ∧ Invariant t ∧ t.phase = .idle ∧ t.inputs = [] ∧
      t.lenW = s.lenW ∧ t.log = s.log ∧ t.fb = Memory.writes s.fb (loadWrites 0 bytes) := by
  have hstep : (Stmt.load bytes).run s = .next (s.feeding _).endCycle := step_idle rfl hp rfl
  have hincoming : (s.feeding { PortIn.quiet with fbWrites := loadWrites 0 bytes }).incoming =
      loadWrites 0 bytes :=
    List.filter_eq_self.2 fun w hw => decide_eq_true (by
      have hw := loadWrites_lt hw
      simp only [State.feeding]
      omega)
  have hidle : s.phase ≠ .busy := by rw [hp]; decide
  exact ⟨_, hstep, (hi.withInputs _).endCycle hidle, hp, hin, rfl, rfl,
    congrArg (Memory.writes s.fb) hincoming⟩

/-- `REQ` in IDLE opens a transaction over FB as it stands. -/
theorem req_run {s : State} {n : Nat} (hi : Invariant s) (hp : s.phase = .idle)
    (hin : s.inputs = []) (hn : n < 2 ^ s.lenW) :
    ∃ t, (Stmt.req n).run s = .next t ∧ Undisturbed t ∧ t.lenR = n ∧ t.inputs = [] ∧
      t.log = s.log ∧ t.fb = s.fb := by
  have hopens : opensTransaction n
      (s.feeding { PortIn.quiet with reqValid := true, reqLen := n }) :=
    ⟨hi.withInputs _, hp, hn, _, [], congrArg _ hin, rfl, rfl, fun c hc => by
      rw [List.mem_singleton.1 hc]; exact ⟨rfl, rfl⟩⟩
  obtain ⟨t, hstep, ht, hlenR, hlog, -, hinputs, hfb, -⟩ := hopens.accept
  exact ⟨t, hstep, ht, hlenR, hinputs.trans hin, hlog, hfb⟩

/-- `TAKE` in RESP appends the response to the log. -/
theorem take_run {s : State} (hi : Invariant s) (hp : s.phase = .resp) :
    ∃ t, Stmt.take.run s = .next t ∧ t.phase = .idle ∧ t.log = s.log ++ [s.response] ∧
      t.fb = s.fb :=
  ⟨_, step_deliver rfl hp rfl hi.result.1, rfl, rfl, rfl⟩

/-- Settles O56: `LOAD`, `REQ`, `WAIT` and `TAKE` one after the other, an undisturbed transaction between
the last two. -/
theorem extractScriptAppendsTheResult : Obligations.ExtractScriptAppendsTheResult := by
  intro s bytes hi hp hin hlen
  obtain ⟨t₁, hload, hi₁, hp₁, hin₁, hlenW₁, hlog₁, hfb₁⟩ := load_run hi hp hin hlen
  obtain ⟨t₂, hreq, hu, hlenR, hin₂, hlog₂, hfb₂⟩ := req_run hi₁ hp₁ hin₁ (hlenW₁ ▸ hlen)
  obtain ⟨k, t₃, hk, -, hle, ha⟩ := hu.answers
  have hwait : Stmt.wait.run t₂ = .next t₃ := waitCycles_of_answersAfter hin₂ hu.busy hle hk
  obtain ⟨hrun, hp₃, -⟩ := hk
  obtain ⟨t, htake, hp₄, hlog₄, hfb₄⟩ := take_run (hu.invariant.kept_by_run hrun) hp₃
  have hfb : t.fb = Memory.writes s.fb (loadWrites 0 bytes) := by
    rw [hfb₄, (run_fb_of_no_inputs hin₂ hrun).2, hfb₂, hfb₁]
  have hloaded : ∀ a, a < bytes.length →
      Memory.read (Memory.writes s.fb (loadWrites 0 bytes)) a = frameByte bytes a := by
    intro a ha
    rw [Memory.read_loadWrites hi.canonical]
    simp [frameByte, ha]
  refine ⟨t, ?_, hp₄, ?_, fun a ha => hfb ▸ hloaded a ha, fun a ha => ?_⟩
  · simp only [extractScript, runScript, hload, hreq, hwait, htake]
  · rw [hlog₄, ha.log, hlog₂, hlog₁, ha.response, hlenR, hfb₂, hfb₁,
      Extract_congr fun a _ hlt => hloaded a hlt]
  · rw [hfb, Memory.read_loadWrites hi.canonical]
    simp [ha]

end Sys2Proof.Machine
end

section
/-! SUPPORT. The state of the block from a request to its response: the codes of the phases, what EXTRACT
does, the progress of BUSY, and what the response depends on. -/

namespace Sys2Proof.Machine

/-! ### The response of a transaction -/

/-- No response state comes sooner than the response: until then the phase is BUSY. -/
theorem answersAfter_le {k k' : Nat} {s t t' : State} (h : answersAfter k s t) (hk' : 1 ≤ k')
    (h' : answersAfter k' s t') : k ≤ k' := by
  obtain ⟨-, -, hbefore⟩ := h
  obtain ⟨hrun', ht', -⟩ := h'
  by_contra hlt
  obtain ⟨u, hu, hbusy⟩ := hbefore k' hk' (by omega)
  obtain rfl : u = t' := Host.Outcome.next.inj (hu.symm.trans hrun')
  rw [hbusy] at ht'
  cases ht'

/-- No response stands on the port before the first cycle of a transaction that begins in IDLE. -/
theorem answersAfter_pos {k : Nat} {s t : State} (hp : s.phase = .idle) (h : answersAfter k s t) :
    1 ≤ k := by
  obtain ⟨hrun, ht, -⟩ := h
  cases k with
  | zero =>
    cases hrun
    rw [hp] at ht
    cases ht
  | succ k => exact Nat.le_add_left 1 k

/-- A transaction has one response state. -/
theorem answersAfter_unique {k k' : Nat} {s t t' : State} (hp : s.phase = .idle)
    (h : answersAfter k s t) (h' : answersAfter k' s t') : t = t' := by
  obtain rfl : k = k' := Nat.le_antisymm (answersAfter_le h (answersAfter_pos hp h') h')
    (answersAfter_le h' (answersAfter_pos hp h) h)
  obtain ⟨hrun, -, -⟩ := h
  obtain ⟨hrun', -, -⟩ := h'
  exact Host.Outcome.next.inj (hrun.symm.trans hrun')

/-- Whenever the response of a transaction comes, it is `Extract` of the length and the frame. -/
theorem opensTransaction.response {n k : Nat} {s t : State} (h : opensTransaction n s)
    (ht : answersAfter k s t) : t.response = (Extract n (Memory.read s.fb)).bits := by
  obtain ⟨_, u, hu, -, -, -, -, -, hresponse⟩ := everyTransactionAnswersExtract n s h
  obtain ⟨-, hidle, -, -⟩ := h
  rw [answersAfter_unique hidle ht hu, hresponse]

/-- Settles O49: both responses are `Extract` of one length, and it depends on no other byte. -/
theorem responseDependsOnlyOnLengthAndKey : Obligations.ResponseDependsOnlyOnLengthAndKey := by
  intro n s s' t t' k k' h h' hkey ht ht'
  rw [h.response ht, h'.response ht', Extract_congr hkey]

/-! ### The progress of BUSY -/

/-- The cycle of BUSY up to the realisation's move leaves the result registers alone (rule R24). -/
theorem State.busyCycle_response (s : State) : s.busyCycle.response = s.response := by
  simp only [State.response, s.busyCycle_keeps]

/-- Settles O47, by the realisation's move: a read and a wait lower the bound, a finish reaches RESP. -/
theorem busyComesNearerToItsEnd : Obligations.BusyComesNearerToItsEnd := by
  intro s hi hb hr
  obtain ⟨hphase, hlenR, -⟩ := s.busyCycle_keeps
  have hbusy : s.busyCycle.phase = .busy := hphase.trans hb
  rcases step_busy hr hb with ⟨a, hm, hs⟩ | ⟨hm, hs⟩ | ⟨-, t, hs, -, hc⟩
  · exact ⟨_, hs, hlenR, .inr ⟨hbusy, busyBound_read_lt hi.readPort hm, s.busyCycle_response⟩⟩
  · exact ⟨_, hs, hlenR, .inr ⟨hbusy, busyBound_wait_lt hi.readPort hm, s.busyCycle_response⟩⟩
  · obtain ⟨hresp, hlenR', -, -⟩ := hc.keeps
    exact ⟨t, hs, hlenR'.trans hlenR, .inl hresp⟩

/-! ### The codes of the phases -/

/-- Rule R21: the phase that a realisation acts in is the one whose code it holds. -/
@[simp] theorem phaseOfCode_code (p : Phase) : phaseOfCode p.code = p := by
  cases p <;> rfl

/-- Settles O5, phase by phase. -/
theorem unusedPhaseCodeActsAsIdle : Obligations.UnusedPhaseCodeActsAsIdle := by
  refine ⟨rfl, rfl, rfl, fun p => ?_, phaseOfCode_code, fun p => ?_, rfl⟩
  · cases p with
    | idle => exact .inl rfl
    | busy => exact .inr (.inl rfl)
    | resp => exact .inr (.inr rfl)
  · cases p <;> decide

/-! ### The request -/

/-- `EXTRACT` in IDLE opens a transaction (rule R141). -/
theorem exec_extract_idle (n : Nat) {s : State} (h : s.phase = .idle) :
    exec (.extract n) s = .next (s.accepted n) := if_pos h

/-- `EXTRACT` has no effect outside IDLE (rule R206). -/
theorem exec_extract_not_idle (n : Nat) {s : State} (h : s.phase ≠ .idle) :
    exec (.extract n) s = .next s := if_neg h

/-- Settles O6: the two cases of EXTRACT, and a well-formed request's length is its own low bits. -/
theorem requestHandshakeOpensTransaction : Obligations.RequestHandshakeOpensTransaction := by
  refine ⟨fun n s h => exec_extract_idle n h, fun n s h hn => ?_,
    fun n s h => exec_extract_not_idle n h⟩
  exact ⟨_, exec_extract_idle n h, lowBits_eq (of_decide_eq_true hn)⟩

end Sys2Proof.Machine
end

section
/-! SUPPORT. BUSY comes to its end with a response that fits the frame, whatever the frame source does. -/

namespace Sys2Proof.Machine

/-- Only the response handshake appends to the output log (rule R143). -/
theorem step_log {s t : State} (h : step s = .next t) (hp : s.phase ≠ .resp) : t.log = s.log := by
  have kb := s.busyCycle_keeps
  cases step_cases h with
  | reset _ ht => simp [ht]
  | idle _ _ _ ht => simp [ht]
  | accept _ _ _ ht => simp [ht, State.noteDuty_keeps]
  | read _ _ a _ ht => simp [ht, kb]
  | wait _ _ _ ht => simp [ht, kb]
  | finish _ _ _ _ hc => simp [hc.keeps, kb]
  | hold _ hr _ _ => exact absurd hr hp
  | deliver _ hr _ _ _ => exact absurd hr hp

/-- Neighbours that will not reset do not reset in the present cycle. -/
theorem State.now_rst_of_inputs {s : State} (h : ∀ c ∈ s.inputs, c.rst = false) :
    s.now.rst = false := by
  rcases s.now_cases with hq | hm
  · rw [hq]; rfl
  · exact h _ hm

/-- Without reset BUSY ends within the bound, whatever the frame source does, with the length and the log
as they were. -/
theorem Invariant.busy_reaches_resp {s : State} (hi : Invariant s) (hb : s.phase = .busy)
    (hrst : ∀ c ∈ s.inputs, c.rst = false) :
    ∃ k t, k ≤ busyBound s ∧ Sys2Proof.core.run k s = .next t ∧ t.phase = .resp ∧
      t.lenR = s.lenR ∧ t.log = s.log := by
  induction hn : busyBound s using Nat.strong_induction_on generalizing s with
  | _ n ih =>
    subst hn
    obtain ⟨u, hstep, hlenR, hu⟩ := busyComesNearerToItsEnd s hi hb (State.now_rst_of_inputs hrst)
    have hlog : u.log = s.log := step_log hstep (by rw [hb]; decide)
    rcases hu with hresp | ⟨hbusy, hlt, -⟩
    · exact ⟨1, u, Nat.le_add_left 1 _, run_succ 0 hstep, hresp, hlenR, hlog⟩
    · have hrst' : ∀ c ∈ u.inputs, c.rst = false := fun c hc =>
        hrst c (List.mem_of_mem_tail (step_inputs hstep ▸ hc))
      obtain ⟨k, t, hle, hrun, hresp, hlenR', hlog'⟩ :=
        ih _ hlt (hi.kept_by_step hstep) hbusy hrst' rfl
      exact ⟨k + 1, t, by omega, (run_succ k hstep).trans hrun, hresp, hlenR'.trans hlenR,
        hlog'.trans hlog⟩

/-- Settles O50: BUSY ends within the bound, and the invariant says what stands in RESP. -/
theorem breachCannotBreakTheResponse : Obligations.BreachCannotBreakTheResponse := by
  intro s hi hb hrst
  obtain ⟨k, t, hle, hrun, hresp, hlenR, hlog⟩ := hi.busy_reaches_resp hb hrst
  have hfits : responseFits t.lenR t.vihl t.response := (hi.kept_by_run hrun).result.2.2 hresp
  exact ⟨k, t, hle, hrun, hresp, hlenR, hlog, hlenR ▸ hfits⟩

end Sys2Proof.Machine
end

section
/-! SUPPORT. The reads of a transaction: those of rule R101 in its order, those that the block issues, what
the port answers, and what a breach of the frame source's duty makes of the answers. -/

namespace Sys2Proof.Machine

/-! ### The reads of rule R101 -/

/-- The reads of rule R101 with the tests of stages E2 and I2 on bits (rules R45 and R64). -/
theorem extractReads_eq (len : Nat) (rd : Nat → Byte) :
    extractReads len rd =
      if len < 14 then []
      else if rd 12 ++ rd 13 ≠ 0x0800#16 then [12, 13]
      else if len < 34 then [12, 13]
      else if (rd 14).extractLsb' 4 4 ≠ 4#4 then [12, 13, 14]
      else if (rd 14).toNat % 16 < 5 then [12, 13, 14]
      else if len < 14 + 4 * ((rd 14).toNat % 16) then [12, 13, 14]
      else [12, 13, 14, 23] := by
  simp only [extractReads, etherType_ne_iff, version_ne_iff]

/-- Each read of rule R101 stands behind the length check that proves it in bounds (rule R43). -/
theorem lt_of_mem_extractReads {len : Nat} {rd : Nat → Byte} {a : Nat}
    (ha : a ∈ extractReads len rd) : a < len := by
  unfold extractReads at ha
  split_ifs at ha <;> simp only [List.mem_cons, List.not_mem_nil, or_false] at ha <;> omega

/-- The reads of rule R101 are the first of the read set (rule R44). -/
theorem extractReads_isPrefix (len : Nat) (rd : Nat → Byte) : extractReads len rd <+: keyAddrs := by
  unfold extractReads
  split_ifs <;> decide

/-- Settles O22, stage by stage of rule R101 and read by read within a stage. -/
theorem readsNeededFollowExtract : Obligations.ReadsNeededFollowExtract := by
  intro len rd j
  rw [nextRead_eq, extractReads_eq]
  by_cases h1 : len < 14
  · simp [h1]
  by_cases h2 : rd 12 ++ rd 13 ≠ 0x0800#16
  · rcases j with _ | _ | j <;> simp [h1, h2]
  by_cases h3 : len < 34
  · rcases j with _ | _ | j <;> simp [h1, h2, h3]
  by_cases h4 : (rd 14).extractLsb' 4 4 ≠ 4#4
  · rcases j with _ | _ | _ | j <;> simp [h1, h2, h3, h4]
  by_cases h5 : (rd 14).toNat % 16 < 5
  · rcases j with _ | _ | _ | j <;> simp [h1, h2, h3, h4, h5]
  by_cases h6 : len < 14 + 4 * ((rd 14).toNat % 16)
  · rcases j with _ | _ | _ | j <;> simp [h1, h2, h3, h4, h5, h6]
  · rcases j with _ | _ | _ | _ | j <;> simp [h1, h2, h3, h4, h5, h6]

/-- The memory `rd` as far as rule R101 has read it. -/
def answeredReads (len : Nat) (rd : Nat → Byte) (a : Nat) : Option Byte :=
  if a ∈ extractReads len rd then some (rd a) else none

/-- With all reads of rule R101 answered none is needed. -/
theorem nextRead_answeredReads (len : Nat) (rd : Nat → Byte) :
    nextRead len (answeredReads len rd) = none := by
  have h := readsNeededFollowExtract len rd (extractReads len rd).length
  rwa [List.take_length, List.getElem?_length] at h

/-- The row that a memory selects is settled by the bytes that rule R101 reads of it (rule R113). -/
theorem decodeKey_congr {len : Nat} {rd rd' : Nat → Byte}
    (h : ∀ a ∈ extractReads len rd, rd' a = rd a) :
    decodeKey len (makeKey (rd' 12) (rd' 13) (rd' 14) (rd' 23)) =
      decodeKey len (makeKey (rd 12) (rd 13) (rd 14) (rd 23)) := by
  have hread : ∀ a b, answeredReads len rd a = some b → a ∈ extractReads len rd ∧ rd a = b := by
    intro a b hab
    unfold answeredReads at hab
    split at hab
    next hmem => exact ⟨hmem, Option.some.inj hab⟩
    next => cases hab
  have hnone := nextRead_answeredReads len rd
  rw [← decodeKey_of_nextRead_none hnone fun a b hab => (hread a b hab).2,
    ← decodeKey_of_nextRead_none hnone fun a b hab => (h a (hread a b hab).1).trans (hread a b hab).2]

/-- Which bytes rule R101 reads is settled by the bytes themselves: each test looks at bytes read before
it. -/
theorem extractReads_congr {len : Nat} {rd rd' : Nat → Byte}
    (h : ∀ a ∈ extractReads len rd, rd' a = rd a) : extractReads len rd' = extractReads len rd := by
  rw [extractReads_eq len rd] at h ⊢
  rw [extractReads_eq len rd']
  by_cases h1 : len < 14
  · simp only [if_pos h1]
  simp only [if_neg h1] at h ⊢
  have h12 : rd' 12 = rd 12 := h 12 (by split_ifs <;> decide)
  have h13 : rd' 13 = rd 13 := h 13 (by split_ifs <;> decide)
  rw [h12, h13]
  by_cases h2 : rd 12 ++ rd 13 ≠ 0x0800#16
  · simp only [if_pos h2]
  by_cases h3 : len < 34
  · simp only [if_pos h3]
  simp only [if_neg h2, if_neg h3] at h ⊢
  rw [h 14 (by split_ifs <;> decide)]

/-- Settles O21: the reads are the first of the read set, and they settle the row. -/
theorem extractDependsOnlyOnBytesRead : Obligations.ExtractDependsOnlyOnBytesRead := by
  intro len rd
  have hpre := extractReads_isPrefix len rd
  refine ⟨fun a ha => ⟨lt_of_mem_extractReads ha, hpre.subset ha⟩,
    hpre.sublist.nodup (by decide), fun rd' h => ?_⟩
  have hrow := decodeKey_congr h
  exact ⟨extractReads_congr h, by rw [Extract_eq_rowResult, hrow, ← Extract_eq_rowResult], hrow⟩

/-! ### The reads of the block -/

/-- A read that the block issues is one that it may issue, seen from the start of the cycle. -/
theorem State.mayIssue_of_readRequest {s : State} {a : Nat} (h : s.readRequest = some a) :
    s.mayIssue a = true := by
  obtain ⟨-, -, hplan⟩ := State.readRequest_some h
  have hlenR : s.busyCycle.lenR = s.lenR := s.busyCycle_keeps.2.1
  have hmay := State.mayIssue_iff.1 (State.mayIssue_of_plan hplan)
  rw [hlenR, s.busyCycle_issued.mem_iff] at hmay
  exact State.mayIssue_iff.2 hmay

/-- Settles O40: what `mayIssue` says of the read on the port. -/
theorem readsAreInBoundsAndOnce : Obligations.ReadsAreInBoundsAndOnce := by
  refine ⟨fun s a h => ?_, fun s other h => ?_, fun len rd a => lt_of_mem_extractReads⟩
  · obtain ⟨hbusy, hrst, -⟩ := State.readRequest_some h
    obtain ⟨hkey, hlt, hnew⟩ := State.mayIssue_iff.1 (State.mayIssue_of_readRequest h)
    exact ⟨hbusy, hrst, hlt, mem_keyAddrs.1 hkey, hnew⟩
  · obtain ⟨a, ha⟩ := Option.isSome_iff_exists.1 h
    rw [State.fbRdAddr, ha]
    exact (State.mayIssue_iff.1 (State.mayIssue_of_readRequest ha)).2.1

/-! ### The answers of the read port -/

/-- The read port after a cycle of BUSY without reset: a finish ends BUSY with no read outstanding, and
every other move leaves the answers as they are and adds the read of this cycle, due in `RD_LAT`
cycles. -/
theorem step_busy_port {s t : State} (hb : s.phase = .busy) (hr : s.now.rst = false)
    (h : step s = .next t) :
    (s.busyCycle.plan = .finish ∧ t.phase = .resp ∧ s.busyCycle.rdPending = [] ∧
      s.readRequest = none) ∨
    (s.busyCycle.plan ≠ .finish ∧ t.phase = .busy ∧ t.rdData = s.busyCycle.rdData ∧
      t.rdPending = s.busyCycle.rdPending ++ s.readRequest.toList.map fun a => (a, s.rdLat)) := by
  have hphase : s.busyCycle.phase = s.phase := s.busyCycle_keeps.1
  rcases step_busy hr hb with ⟨a, hm, hs⟩ | ⟨hm, hs⟩ | ⟨hm, u, hs, -, hc⟩
  · obtain rfl := Host.Outcome.next.inj (h.symm.trans hs)
    refine .inr ⟨by simp [hm], hphase.trans hb, rfl, ?_⟩
    simp [State.readRequest, hb, hr, hm, s.busyCycle_keeps]
  · obtain rfl := Host.Outcome.next.inj (h.symm.trans hs)
    refine .inr ⟨by simp [hm], hphase.trans hb, rfl, ?_⟩
    simp [State.readRequest, hb, hr, hm]
  · obtain rfl := Host.Outcome.next.inj (h.symm.trans hs)
    refine .inl ⟨hm, hc.keeps.1, (State.mayFinish_iff.1 (State.mayFinish_of_plan hm)).2, ?_⟩
    simp [State.readRequest, hb, hr, hm]

/-- An outstanding read that is not due yet comes one cycle nearer (rule R42). -/
theorem State.busyCycle_nearer {s : State} {a d : Nat} (h : (a, d + 1) ∈ s.rdPending)
    (hd : 1 ≤ d) : (a, d) ∈ s.busyCycle.rdPending := by
  rw [s.busyCycle_rdPending, List.mem_map]
  exact ⟨(a, d + 1), List.mem_filter.2 ⟨h, decide_eq_true (by omega)⟩, rfl⟩

/-- What the read port answers in a cycle of BUSY without reset is sampled. -/
theorem State.mem_busyCycle_rdData {s : State} {p : Nat × Byte} (h : p ∈ s.dueData) :
    p ∈ s.busyCycle.rdData := by
  unfold State.dueData at h
  split at h
  · exact List.mem_append_right _ h
  · cases h

/-- A read that is due is answered with FB's byte while the frame source keeps its duty (rule R50). -/
theorem State.mem_dueData {s : State} {a : Nat} (hi : Invariant s) (hb : s.phase = .busy)
    (hr : s.now.rst = false) (hd : s.disturbed = false) (hduty : breaksDuty s.lenR s.now = false)
    (h : (a, 1) ∈ s.rdPending) : (a, memRead s a) ∈ s.dueData := by
  obtain ⟨-, -, hmem, -, -⟩ := hi.readPort
  have hlt : a < s.lenR :=
    (hmem a (List.mem_append_right _ (List.mem_map_of_mem (f := (·.1)) h))).2
  have hnote : s.endCycle.noteDuty s.now = s.endCycle := State.noteDuty_eq_self (.inr hduty)
  have hanswer : s.endCycle.answer a = memRead s a := by
    simp only [State.answer, State.endCycle_disturbed, hd, memRead, State.endCycle_fb]
    exact Memory.read_writes_outside (State.writesFrame_incoming hduty) hlt
  have harrive : a ∈ s.endCycle.arriving :=
    List.mem_map.2 ⟨(a, 1), List.mem_filter.2 ⟨h, rfl⟩, rfl⟩
  unfold State.dueData
  rw [if_pos ⟨hb, hr⟩, hnote, ← hanswer]
  exact List.mem_map_of_mem harrive

/-- Settles O41, by what the cycle leaves on the read port (`step_busy_port`). -/
theorem readDataComesAfterRdLat : Obligations.ReadDataComesAfterRdLat := by
  intro s t hi hb hr h
  have hdue : ∀ a, (a, 1) ∈ s.rdPending → s.disturbed = false → breaksDuty s.lenR s.now = false →
      (∀ stray, (a, memRead s a) ∈ s.fbRdData stray) ∧ (a, memRead s a) ∈ s.busyCycle.rdData := by
    intro a ha hd hduty
    have hmem := State.mem_dueData hi hb hr hd hduty ha
    exact ⟨fun stray => State.mem_fbRdData stray hmem, State.mem_busyCycle_rdData hmem⟩
  rcases step_busy_port hb hr h with
    ⟨hplan, hphase, hnone, hreq⟩ | ⟨hplan, hphase, hdata, hpending⟩
  · refine ⟨fun a ha => ?_, fun a d ha hd => ?_, fun a ha hd hduty => ?_, ?_, fun _ => hnone⟩
    · rw [hreq] at ha
      cases ha
    · have hnear := State.busyCycle_nearer ha hd
      rw [hnone] at hnear
      cases hnear
    · obtain ⟨hport, hsampled⟩ := hdue a ha hd hduty
      exact ⟨hport, hsampled, fun hbusy => by rw [hphase] at hbusy; cases hbusy⟩
    · simp [hphase, hplan]
  · refine ⟨fun a ha => ?_, fun a d ha hd => ?_, fun a ha hd hduty => ?_, ?_,
      fun hfinish => absurd hfinish hplan⟩
    · rw [hpending, ha]
      simp
    · rw [hpending]
      exact List.mem_append_left _ (State.busyCycle_nearer ha hd)
    · obtain ⟨hport, hsampled⟩ := hdue a ha hd hduty
      exact ⟨hport, hsampled, fun _ => hdata ▸ hsampled⟩
    · simp [hphase, hplan]

/-! ### A breach of the frame source's duty -/

/-- In a disturbed transaction the port answers a free draw (rule R51). -/
theorem State.answer_disturbed {s : State} (hd : s.disturbed = true) (a : Nat) :
    s.answer a = Config.freeRead s.draws a := if_pos hd

/-- A breach in a cycle of BUSY disturbs the transaction before the cycle's data is sampled. -/
theorem State.busyCycle_of_breach {s : State} (hb : s.phase = .busy)
    (h : breaksDuty s.lenR s.now = true) : s.busyCycle = s.endCycle.disturb.sample := by
  have hnote : s.endCycle.noteDuty s.now = s.endCycle.disturb := if_pos ⟨hb, h⟩
  rw [State.busyCycle, hnote]

/-- Settles O43: the breach frees the bytes sampled before it, and those it finds on the port are free
draws too. -/
theorem breachMakesReadsFree : Obligations.BreachMakesReadsFree := by
  intro s hb h
  refine ⟨by rw [State.busyCycle_of_breach hb h]; rfl, fun p hp => ?_,
    fun a => s.busyCycle_issued.mem_iff⟩
  rw [State.busyCycle_of_breach hb h, State.sample_rdData, List.mem_append] at hp
  rcases hp with hbefore | hnow
  · obtain ⟨q, -, rfl⟩ := List.mem_map.1 hbefore
    exact ⟨s.endCycle.draws, rfl⟩
  · obtain ⟨a, -, rfl⟩ := List.mem_map.1 hnow
    exact ⟨s.endCycle.disturb.draws, State.answer_disturbed (s := s.endCycle.disturb) rfl a⟩

end Sys2Proof.Machine
end

section
/-! SUPPORT. The encodings: the first row of the table that holds is the one selected, its outcome meets the
row's conditions and computes `Extract`, and the codes of the response are those of the tables. -/

namespace Sys2Proof

/-! ### The selected row -/

/-- The last row catches the frames of its outcome: they are those that no row above caught (rule R68). -/
theorem rowAccept_holds_of_decodeKey {len : Nat} {k : BitVec 32} {ihl : BitVec 4}
    (h : decodeKey len k = .accept ihl) : rowAccept.holds k len = true := by
  rw [decodeKey_chain] at h
  split_ifs at h with h1 h2 h3 h4 h5 h6 h7 h8 h9
  have hmatch : k &&& rowAccept.maskBits = rowAccept.matchBits :=
    (masked_proto k).2 ⟨not_not.1 h2, not_not.1 h4, not_not.1 h7⟩
  have hkey : minIhl ≤ (keyIhl k).toNat := Nat.le_of_not_lt h5
  have hlen : payloadOffset (keyIhl k) < len := by
    simp only [payloadOffset, ipEnd, ethHdrLen, ihlUnit, udpHdrLen]
    omega
  simp only [Row.holds, Bool.and_eq_true, beq_iff_eq]
  exact ⟨⟨hmatch, decide_eq_true hkey⟩, decide_eq_true hlen⟩

/-- The table selects the first row that holds. -/
theorem decodeKey_first_row (len : Nat) (k : BitVec 32) :
    ∃ (above below : List Row) (r : Row), rejectRows ++ [rowAccept] = above ++ r :: below ∧
      r.holds k len = true ∧ (∀ q ∈ above, q.holds k len = false) ∧
      decodeKey len k = r.outcome k := by
  cases hfind : rejectRows.find? (fun r => r.holds k len) with
  | some r =>
    have hrow : decodeKey len k = r.outcome k := by rw [decodeKey, hfind]
    obtain ⟨hholds, above, below, hsplit, habove⟩ := List.find?_eq_some_iff_append.1 hfind
    refine ⟨above, below ++ [rowAccept], r, by simp [hsplit], hholds, fun q hq => ?_, hrow⟩
    simpa using habove q hq
  | none =>
    have hrow : decodeKey len k = rowAccept.outcome k := by rw [decodeKey, hfind]
    refine ⟨rejectRows, [], rowAccept, rfl, rowAccept_holds_of_decodeKey hrow, fun q hq => ?_, hrow⟩
    simpa using List.find?_eq_none.1 hfind q hq

/-- The selected row's outcome meets the row's key condition, whatever `LEN_W` is. -/
theorem decodeKey_wellFormed (lenW len : Nat) (k : BitVec 32) :
    (decodeKey len k).wellFormed lenW = true := by
  rw [decodeKey_chain]
  split_ifs with h1 h2 h3 h4 h5 h6 h7 h8 h9
  case pos => rfl
  case pos => exact bne_iff_ne.2 h2
  case pos => rfl
  case pos => exact bne_iff_ne.2 h4
  case pos => exact decide_eq_true h5
  case pos => exact decide_eq_true (by omega)
  all_goals have hihl := decide_eq_true (Nat.le_of_not_lt h5)
  case pos => exact Bool.and_eq_true_iff.2 ⟨hihl, bne_iff_ne.2 h7⟩
  all_goals exact hihl

end Sys2Proof

namespace Sys2Proof.Machine

/-- Settles O3: the first row that holds, and what `decodeKey_chain` says of its outcome. -/
theorem selectedRowMeetsItsConditions : Obligations.SelectedRowMeetsItsConditions :=
  fun len k => ⟨decodeKey_first_row len k, decodeKey_isOutcome len k,
    fun lenW => decodeKey_wellFormed lenW len k, decodeKey_fitsLength len k⟩

/-- Settles O20: the selected row concludes with its own result, and that is `Extract`. -/
theorem selectedRowComputesExtract : Obligations.SelectedRowComputesExtract := by
  intro s rd hb hl
  obtain ⟨t, ht, hc⟩ := exec_decodeKey_concludes hb (makeKey (rd 12) (rd 13) (rd 14) (rd 23))
  obtain ⟨hresp, -⟩ := hc.keeps
  have hne : t.phase ≠ s.phase := by rw [hresp, hb]; decide
  refine ⟨t, ht, hresp, ?_⟩
  rw [exec_response (decodeKey_isOutcome _ _) hl ht hne, Extract_eq_rowResult]

/-- Settles O1, word by word. -/
theorem decodedWordsFollowTheSpec : Obligations.DecodedWordsFollowTheSpec := by
  unfold Obligations.DecodedWordsFollowTheSpec
  decide

/-! ### The codes of the response -/

/-- The list of the ten details holds them all. -/
theorem Detail.mem_all (d : Detail) : d ∈ Detail.all := by
  cases d <;> decide

/-- The legal pairs are those of a detail and the status that it determines (rule R71). -/
theorem legalCodes_iff {st : BitVec 3} {dt : BitVec 4} :
    legalCodes st dt = true ↔ ∃ d : Detail, d.code = dt ∧ d.status.code = st := by
  simp [legalCodes, Detail.mem_all]

/-- The detail that a code stands for is its place in the table (rule R71). -/
theorem Detail.code_injective : Function.Injective Detail.code := by
  intro d d' h
  have hplace : ∀ e : Detail, Detail.all[e.code.toNat]? = some e := by
    intro e; cases e <;> rfl
  exact Option.some.inj ((hplace d).symm.trans (h ▸ hplace d'))

/-- A legal pair has no reserved code and no status of the record decoder (rules R70, R71 and R173). -/
theorem codes_lt_of_legalCodes {st : BitVec 3} {dt : BitVec 4} (h : legalCodes st dt = true) :
    st.toNat < 4 ∧ dt.toNat < 10 := by
  obtain ⟨d, rfl, rfl⟩ := legalCodes_iff.1 h
  cases d <;> decide

/-- Settles O4: the codes as the tables write them, and `legalCodes_iff`. -/
theorem detailCodesDetermineStatus : Obligations.DetailCodesDetermineStatus :=
  ⟨rfl, rfl, fun _ _ h => Detail.code_injective h, fun _ _ => legalCodes_iff⟩

/-- Every instruction keeps a legal pair: an outcome writes one, and nothing else writes the codes. -/
theorem legalCodes_of_exec {i : Instr} {s t : State}
    (hs : legalCodes s.resStatus s.resDetail = true) (h : exec i s = .next t) :
    legalCodes t.resStatus t.resDetail = true := by
  rcases exec_cases h with rfl | ⟨-, n, -, rfl⟩ | ⟨-, -, et, v, p, r, ⟨hlegal, -⟩, rfl⟩
  · exact hs
  · exact hs
  · exact hlegal

/-- Settles O19: the pair stays legal, and a legal pair has no reserved code. -/
theorem reservedCodesAreNeverDriven : Obligations.ReservedCodesAreNeverDriven := by
  intro i s t hs h
  have hlegal := legalCodes_of_exec hs h
  exact ⟨hlegal, codes_lt_of_legalCodes hlegal⟩

/-- Settles O31: with `rst = 0` the edge of RESP is the response handshake's, which tests the pair. -/
theorem reservedResponseIsAFault : Obligations.ReservedResponseIsAFault := by
  intro s hp hr hready hl
  have hedge : s.edge = .stop (.reservedResponse s.resStatus s.resDetail) := by
    simp [State.edge, hr, hp, hready, deliverEdge, hl]
  rw [step, hedge]

end Sys2Proof.Machine
end

section
/-! SUPPORT. The outcome rows one by one: when the table selects each, said of the four key bytes, which
byte is needed before it, and the state that its effect leaves. -/

namespace Sys2Proof

/-! ### When a row is selected -/

/-- What selects an outcome (rules R102 to R112), said of the frame's length and the four key bytes: the
stages before it pass and its own check decides. No key selects a request. -/
def Instr.selectedBy (len : Nat) (b12 b13 b14 b23 : Byte) : Instr → Prop
  | .extract _ => False
  | .rejEthTruncated => len < 14
  | .rejBadEthertype et => 14 ≤ len ∧ b12 ++ b13 = et ∧ et ≠ 0x0800#16
  | .rejIpv4Truncated => 14 ≤ len ∧ b12 ++ b13 = 0x0800#16 ∧ len < 34
  | .rejBadVersion version ihl =>
      34 ≤ len ∧ b12 ++ b13 = 0x0800#16 ∧ b14 = version ++ ihl ∧ version ≠ 4#4
  | .rejBadIhl ihl =>
      34 ≤ len ∧ b12 ++ b13 = 0x0800#16 ∧ b14 = 4#4 ++ ihl ∧ ihl.toNat < 5
  | .rejIpv4OptionsTruncated ihl =>
      34 ≤ len ∧ b12 ++ b13 = 0x0800#16 ∧ b14 = 4#4 ++ ihl ∧ 5 ≤ ihl.toNat ∧
        len < 14 + 4 * ihl.toNat
  | .rejNotUdp ihl p =>
      b12 ++ b13 = 0x0800#16 ∧ b14 = 4#4 ++ ihl ∧ 5 ≤ ihl.toNat ∧ 14 + 4 * ihl.toNat ≤ len ∧
        b23 = p ∧ p ≠ 17#8
  | .rejUdpHdrTruncated ihl =>
      b12 ++ b13 = 0x0800#16 ∧ b14 = 4#4 ++ ihl ∧ 5 ≤ ihl.toNat ∧ b23 = 17#8 ∧
        14 + 4 * ihl.toNat ≤ len ∧ len < 14 + 4 * ihl.toNat + 8
  | .rejEmptyPayload ihl =>
      b12 ++ b13 = 0x0800#16 ∧ b14 = 4#4 ++ ihl ∧ 5 ≤ ihl.toNat ∧ b23 = 17#8 ∧
        len = 14 + 4 * ihl.toNat + 8
  | .accept ihl =>
      b12 ++ b13 = 0x0800#16 ∧ b14 = 4#4 ++ ihl ∧ 5 ≤ ihl.toNat ∧ b23 = 17#8 ∧
        14 + 4 * ihl.toNat + 8 < len

/-- The outcome that the table selects meets its conditions. -/
theorem decodeKey_selectedBy (len : Nat) (b12 b13 b14 b23 : Byte) :
    (decodeKey len (makeKey b12 b13 b14 b23)).selectedBy len b12 b13 b14 b23 := by
  rw [decodeKey_chain]
  simp only [keyEthType_makeKey, keyVersion_makeKey, keyIhl_makeKey, keyProto_makeKey]
  have hb14 : b14 = b14.extractLsb' 4 4 ++ b14.extractLsb' 0 4 :=
    Machine.eq_version_ihl_iff.2 ⟨rfl, rfl⟩
  split_ifs with h1 h2 h3 h4 h5 h6 h7 h8 h9
  case pos => exact h1
  case pos => exact ⟨by omega, rfl, h2⟩
  all_goals have het := not_not.1 h2
  case pos => exact ⟨by omega, het, h3⟩
  case pos => exact ⟨by omega, het, hb14, h4⟩
  all_goals rw [not_not.1 h4] at hb14
  case pos => exact ⟨by omega, het, hb14, h5⟩
  case pos => exact ⟨by omega, het, hb14, by omega, h6⟩
  case pos => exact ⟨het, hb14, by omega, by omega, rfl, h7⟩
  all_goals have hproto := not_not.1 h7
  case pos => exact ⟨het, hb14, by omega, hproto, by omega, by omega⟩
  case pos => exact ⟨het, hb14, by omega, hproto, by omega⟩
  case neg => exact ⟨het, hb14, by omega, hproto, by omega⟩

/-- What is left of the table behind the version check of stage I2: the fields are IHL and the protocol. -/
theorem decodeKey_of_version4 {len : Nat} {b12 b13 b14 b23 : Byte} {ihl : BitVec 4}
    (hlen : 34 ≤ len) (het : b12 ++ b13 = 0x0800#16) (hb14 : b14 = 4#4 ++ ihl) :
    decodeKey len (makeKey b12 b13 b14 b23) =
      if ihl.toNat < 5 then .rejBadIhl ihl
      else if len < 14 + 4 * ihl.toNat then .rejIpv4OptionsTruncated ihl
      else if b23 ≠ 17#8 then .rejNotUdp ihl b23
      else if len < 22 + 4 * ihl.toNat then .rejUdpHdrTruncated ihl
      else if len = 22 + 4 * ihl.toNat then .rejEmptyPayload ihl
      else .accept ihl := by
  obtain ⟨hversion, hihl⟩ := Machine.eq_version_ihl_iff.1 hb14
  rw [decodeKey_chain]
  simp only [keyEthType_makeKey, keyVersion_makeKey, keyIhl_makeKey, keyProto_makeKey, hihl]
  rw [if_neg (by omega), if_neg (not_not.2 het), if_neg (by omega), if_neg (not_not.2 hversion)]

/-- The conditions of an outcome select it. -/
theorem Instr.selectedBy.decodeKey_eq {i : Instr} {len : Nat} {b12 b13 b14 b23 : Byte}
    (h : i.selectedBy len b12 b13 b14 b23) : decodeKey len (makeKey b12 b13 b14 b23) = i := by
  have hchain := decodeKey_chain len (makeKey b12 b13 b14 b23)
  simp only [keyEthType_makeKey, keyVersion_makeKey, keyIhl_makeKey] at hchain
  cases i with
  | extract n => exact h.elim
  | rejEthTruncated =>
    have hlen : len < 14 := h
    rw [hchain, if_pos hlen]
  | rejBadEthertype et =>
    obtain ⟨hmin, rfl, hne⟩ := h
    rw [hchain, if_neg (by omega), if_pos hne]
  | rejIpv4Truncated =>
    obtain ⟨hmin, het, hlen⟩ := h
    rw [hchain, if_neg (by omega), if_neg (not_not.2 het), if_pos hlen]
  | rejBadVersion version ihl =>
    obtain ⟨hmin, het, hb14, hne⟩ := h
    obtain ⟨rfl, rfl⟩ := Machine.eq_version_ihl_iff.1 hb14
    rw [hchain, if_neg (by omega), if_neg (not_not.2 het), if_neg (by omega), if_pos hne]
  | rejBadIhl ihl =>
    obtain ⟨hmin, het, hb14, hihl⟩ := h
    rw [decodeKey_of_version4 hmin het hb14, if_pos hihl]
  | rejIpv4OptionsTruncated ihl =>
    obtain ⟨hmin, het, hb14, hihl, hlen⟩ := h
    rw [decodeKey_of_version4 hmin het hb14, if_neg (by omega), if_pos hlen]
  | rejNotUdp ihl p =>
    obtain ⟨het, hb14, hihl, hlen, rfl, hne⟩ := h
    rw [decodeKey_of_version4 (by omega) het hb14, if_neg (by omega), if_neg (by omega), if_pos hne]
  | rejUdpHdrTruncated ihl =>
    obtain ⟨het, hb14, hihl, hproto, hmin, hlen⟩ := h
    rw [decodeKey_of_version4 (by omega) het hb14, if_neg (by omega), if_neg (by omega),
      if_neg (not_not.2 hproto), if_pos (by omega)]
  | rejEmptyPayload ihl =>
    obtain ⟨het, hb14, hihl, hproto, hlen⟩ := h
    rw [decodeKey_of_version4 (by omega) het hb14, if_neg (by omega), if_neg (by omega),
      if_neg (not_not.2 hproto), if_neg (by omega), if_pos (by omega)]
  | accept ihl =>
    obtain ⟨het, hb14, hihl, hproto, hlen⟩ := h
    rw [decodeKey_of_version4 (by omega) het hb14, if_neg (by omega), if_neg (by omega),
      if_neg (not_not.2 hproto), if_neg (by omega), if_neg (by omega)]

/-- Each outcome is selected exactly under its conditions. -/
theorem decodeKey_eq_iff (i : Instr) (len : Nat) (b12 b13 b14 b23 : Byte) :
    decodeKey len (makeKey b12 b13 b14 b23) = i ↔ i.selectedBy len b12 b13 b14 b23 :=
  ⟨fun h => h ▸ decodeKey_selectedBy len b12 b13 b14 b23, Instr.selectedBy.decodeKey_eq⟩

end Sys2Proof

namespace Sys2Proof.Machine

/-! ### What is needed before it -/

/-- Below 14 bytes none is needed (rule R102). -/
theorem nextRead_of_lt_14 {len : Nat} (rd : Nat → Option Byte) (hlen : len < 14) :
    nextRead len rd = none := by
  rw [nextRead_eq, if_pos hlen]

/-- Below 34 bytes none past the EtherType is needed (rule R104). -/
theorem nextRead_of_lt_34 {len : Nat} {rd : Nat → Option Byte} {a : Nat} (hlen : len < 34)
    (h : nextRead len rd = some a) : a = 12 ∨ a = 13 := by
  simp only [nextRead_eq, if_pos hlen, ite_self] at h
  split at h
  · cases h
  · split at h
    · exact .inl (Option.some.inj h).symm
    · exact .inr (Option.some.inj h).symm
    · cases h

/-- Stage E2 needs byte 12. -/
theorem nextRead_eq_12 {len : Nat} {rd : Nat → Option Byte} (hlen : 14 ≤ len) (h12 : rd 12 = none) :
    nextRead len rd = some 12 := by
  rw [nextRead_eq, if_neg (by omega), h12]

/-- Stage E2 needs byte 13. -/
theorem nextRead_eq_13 {len : Nat} {rd : Nat → Option Byte} {b12 : Byte} (hlen : 14 ≤ len)
    (h12 : rd 12 = some b12) (h13 : rd 13 = none) : nextRead len rd = some 13 := by
  rw [nextRead_eq, if_neg (by omega), h12, h13]

section
variable {len : Nat} {rd : Nat → Option Byte} {b12 b13 : Byte}
  (h12 : rd 12 = some b12) (h13 : rd 13 = some b13)
include h12 h13

/-- Another EtherType needs no further byte (rule R103). -/
theorem nextRead_of_etherType_ne (het : b12 ++ b13 ≠ 0x0800#16) : nextRead len rd = none := by
  simp only [nextRead_eq, h12, h13, if_pos het, ite_self]

/-- An IPv4 frame cut before its options needs no further byte than its EtherType (rule R104). -/
theorem nextRead_of_short_ipv4 (hlen : len < 34) : nextRead len rd = none := by
  simp only [nextRead_eq, h12, h13, if_pos hlen, ite_self]

/-- Another version needs no further byte (rule R105). -/
theorem nextRead_of_version_ne {version ihl : BitVec 4} (h14 : rd 14 = some (version ++ ihl))
    (hne : version ≠ 4#4) : nextRead len rd = none := by
  simp only [nextRead_eq, h12, h13, h14, (version_ihl_of_append version ihl).1, if_pos hne, ite_self]

variable (het : b12 ++ b13 = 0x0800#16)
include het

/-- Stage I2 needs byte 14. -/
theorem nextRead_eq_14 (hlen : 34 ≤ len) (h14 : rd 14 = none) : nextRead len rd = some 14 := by
  simp only [nextRead_eq, h12, h13, h14, if_neg (not_not.2 het)]
  rw [if_neg (by omega), if_neg (by omega)]

/-- Stage U1 needs byte 23, and nothing is needed behind it (rule R108). -/
theorem nextRead_at_protocol {ihl : BitVec 4} (h14 : rd 14 = some (4#4 ++ ihl))
    (hihl : 5 ≤ ihl.toNat) (hlen : 14 + 4 * ihl.toNat ≤ len) :
    nextRead len rd = if rd 23 = none then some 23 else none := by
  obtain ⟨hversion, hfield⟩ := version_ihl_of_append 4#4 ihl
  simp only [nextRead_eq, h12, h13, h14, hversion, hfield, if_neg (not_not.2 het), ne_eq,
    not_true_eq_false, if_false]
  rw [if_neg (by omega), if_neg (by omega), if_neg (by omega), if_neg (by omega)]
  cases rd 23 <;> rfl

end

/-- A realisation that follows no schedule reads what is needed next for a frame of `len_r` bytes. -/
theorem State.nextRead_of_readRequest {s : State} {a : Nat} (hs : s.sched = [])
    (h : s.readRequest = some a) : nextRead s.lenR (sampled s.busyCycle.rdData) = some a := by
  have hlenR : s.busyCycle.lenR = s.lenR := s.busyCycle_keeps.2.1
  rw [← hlenR]
  exact State.needs_of_readRequest hs h

/-! ### Its effect -/

/-- A rejecting row whose condition holds leaves the header registers that it writes and the codes of its
detail, with a zero descriptor (rules R142 and R204). -/
theorem State.concludeIf_rejected {s : State} {rowHolds : Bool} (hb : s.phase = .busy)
    (hc : rowHolds = true) (et : BitVec 16) (v p : Byte) (d : Detail) :
    s.concludeIf rowHolds ((((s.latchEthType et).latchVihl v).latchProto p).rejected d) =
      .next (outcomeState et v p d.status.code d.code 0 0 s) := by
  rw [State.concludeIf_pos hb hc]
  simp only [State.rejected, State.concluded, Result.reject, Result.bits, lowBits_zero]
  rfl

/-- The accept row whose condition holds leaves its descriptor, exact within `LEN_W` bits (rule R112). -/
theorem execAccept_outcome {ihl : BitVec 4} {s : State} (hb : s.phase = .busy) (hihl : 5 ≤ ihl.toNat)
    (hfit : s.lenR < 2 ^ s.lenW) (hlen : payloadOffset ihl < s.lenR) :
    execAccept ihl s =
      .next (outcomeState etherTypeIpv4 (versionIpv4 ++ ihl) protoUdp Status.ok.code
        Detail.none.code (payloadOffset ihl) (s.lenR - payloadOffset ihl) s) := by
  have hoffset : lowBits s.lenW (payloadOffset ihl) = payloadOffset ihl := lowBits_eq (by omega)
  have hlength : lowBits s.lenW (s.lenR - payloadOffset ihl) = s.lenR - payloadOffset ihl :=
    lowBits_eq (by omega)
  rw [execAccept, State.concludeIf_pos hb (decide_eq_true ⟨hihl, hlen⟩)]
  simp only [State.concluded, Result.accept, Result.bits, State.latchProto, State.latchVihl,
    State.latchEthType, hoffset, hlength]
  rfl

/-- A row other than the accept row that ends BUSY leaves the response of a rejection. -/
theorem exec_reject_response {i : Instr} {s t : State} (ho : i.isOutcome = true)
    (hi : ∀ ihl, i ≠ .accept ihl) (h : exec i s = .next t) (hne : t.phase ≠ s.phase) :
    ∃ d, t.response = (Result.reject d).bits := by
  cases i with
  | extract n => cases ho
  | accept ihl => exact absurd rfl (hi ihl)
  | _ => exact ⟨_, State.concludeIf_rejected_response h hne⟩

/-! ### The ten rows -/

/-- Settles O7: the first check of the table. -/
theorem shortFrameIsEthTruncated : Obligations.ShortFrameIsEthTruncated := by
  refine ⟨fun len k => ?_, fun len rd => nextRead_of_lt_14 rd, fun s hb hlen hs => ?_,
    fun s hb hlen => State.concludeIf_rejected hb (decide_eq_true hlen) s.ethType s.vihl s.proto
      .ethTruncated⟩
  · rw [← makeKey_extract k]
    exact decodeKey_eq_iff .rejEthTruncated len _ _ _ _
  · refine Option.eq_none_iff_forall_ne_some.2 fun a ha => ?_
    have hneeded := State.nextRead_of_readRequest hs ha
    rw [nextRead_of_lt_14 _ hlen] at hneeded
    cases hneeded

/-- Settles O8: the EtherType, both of whose bytes are needed. -/
theorem otherEthertypeIsBadEthertype : Obligations.OtherEthertypeIsBadEthertype := by
  refine ⟨fun len b12 b13 b14 b23 et => decodeKey_eq_iff (.rejBadEthertype et) len b12 b13 b14 b23,
    fun len rd hlen => ⟨nextRead_eq_12 hlen, fun b12 => nextRead_eq_13 hlen,
      fun b12 b13 => nextRead_of_etherType_ne⟩, fun et s hb hlen hne => ?_⟩
  exact State.concludeIf_rejected hb
    (Bool.and_eq_true_iff.2 ⟨bne_iff_ne.2 hne, decide_eq_true hlen⟩) et s.vihl s.proto .badEthertype

/-- Settles O9: below 34 bytes nothing past the EtherType is needed, and without a schedule nothing else
is read. -/
theorem shortIpv4FrameIsIpv4Truncated : Obligations.ShortIpv4FrameIsIpv4Truncated := by
  refine ⟨fun len b12 b13 b14 b23 => decodeKey_eq_iff .rejIpv4Truncated len b12 b13 b14 b23,
    fun len rd b12 b13 hlen h12 h13 => nextRead_of_short_ipv4 h12 h13 hlen,
    fun s hb hlen hs => ?_, fun s hb hmin hlen => ?_⟩
  · have hread : ∀ a, s.readRequest = some a → a = 12 ∨ a = 13 := fun a ha =>
      nextRead_of_lt_34 hlen (State.nextRead_of_readRequest hs ha)
    exact ⟨fun h => absurd (hread 14 h) (by decide), fun h => absurd (hread 23 h) (by decide)⟩
  · exact State.concludeIf_rejected hb (decide_eq_true ⟨hmin, hlen⟩) etherTypeIpv4 s.vihl s.proto
      .ipv4Truncated

/-- Settles O10: the version, for which byte 14 is needed. -/
theorem otherVersionIsBadVersion : Obligations.OtherVersionIsBadVersion := by
  refine ⟨fun len b12 b13 b14 b23 version ihl =>
      decodeKey_eq_iff (.rejBadVersion version ihl) len b12 b13 b14 b23,
    fun len rd b12 b13 hlen h12 h13 het => ⟨nextRead_eq_14 h12 h13 het hlen,
      fun version ihl => nextRead_of_version_ne h12 h13⟩, fun version ihl s hb hlen hne => ?_⟩
  exact State.concludeIf_rejected hb
    (Bool.and_eq_true_iff.2 ⟨bne_iff_ne.2 hne, decide_eq_true hlen⟩) etherTypeIpv4
    (version ++ ihl) s.proto .badVersion

/-- Settles O11: an IHL below the least legal one. -/
theorem smallIhlIsBadIhl : Obligations.SmallIhlIsBadIhl :=
  ⟨fun len b12 b13 b14 b23 ihl => decodeKey_eq_iff (.rejBadIhl ihl) len b12 b13 b14 b23,
    fun ihl s hb hlen hihl =>
      State.concludeIf_rejected hb (decide_eq_true ⟨hihl, hlen⟩) etherTypeIpv4 (versionIpv4 ++ ihl)
        s.proto .badIhl⟩

/-- Settles O12: `34 <= len_r < 14 + 4 * IHL` leaves room for no IHL below 6. -/
theorem cutOptionsAreOptionsTruncated : Obligations.CutOptionsAreOptionsTruncated := by
  refine ⟨fun len b12 b13 b14 b23 ihl =>
      decodeKey_eq_iff (.rejIpv4OptionsTruncated ihl) len b12 b13 b14 b23,
    fun len k ihl h => ?_, fun ihl s hb hmin hihl hlen => ?_⟩
  · have hfits := decodeKey_fitsLength len k
    rw [h] at hfits
    obtain ⟨hmin, hlen⟩ := of_decide_eq_true hfits
    omega
  · have hoptions : 6 ≤ ihl.toNat := by omega
    exact State.concludeIf_rejected hb (decide_eq_true ⟨hoptions, hmin, hlen⟩) etherTypeIpv4
      (versionIpv4 ++ ihl) s.proto .ipv4OptionsTruncated

/-- Settles O13: the protocol, for which byte 23 is needed and nothing behind it. -/
theorem otherProtocolIsNotUdp : Obligations.OtherProtocolIsNotUdp := by
  refine ⟨fun len b12 b13 b14 b23 p ihl => decodeKey_eq_iff (.rejNotUdp ihl p) len b12 b13 b14 b23,
    fun len rd b12 b13 ihl h12 h13 het h14 hihl hlen => ?_, fun ihl p s hb hihl hlen hne => ?_⟩
  · rw [nextRead_at_protocol h12 h13 het h14 hihl hlen]
    exact ⟨fun h23 => if_pos h23, fun p h23 => if_neg (by simp [h23])⟩
  · exact State.concludeIf_rejected hb
      (Bool.and_eq_true_iff.2 ⟨bne_iff_ne.2 hne, decide_eq_true ⟨hihl, hlen⟩⟩) etherTypeIpv4
      (versionIpv4 ++ ihl) p .nonUdpProtocol

/-- The read set ends below the UDP header, wherever that begins. -/
theorem lt_ipEnd_of_mem_keyAddrs {a : Nat} {ihl : BitVec 4} (ha : a ∈ keyAddrs)
    (hihl : 5 ≤ ihl.toNat) : a < 14 + 4 * ihl.toNat := by
  have := mem_keyAddrs.1 ha
  omega

/-- Settles O14: every byte needed or read is in the read set. -/
theorem cutUdpHeaderIsUdpHdrTruncated : Obligations.CutUdpHeaderIsUdpHdrTruncated := by
  refine ⟨fun len b12 b13 b14 b23 ihl =>
      decodeKey_eq_iff (.rejUdpHdrTruncated ihl) len b12 b13 b14 b23,
    fun len rd a ihl hihl h => lt_ipEnd_of_mem_keyAddrs (nextRead_some h).1 hihl,
    fun s a ihl hihl h => ?_, fun ihl s hb hihl hmin hlen => ?_⟩
  · exact lt_ipEnd_of_mem_keyAddrs (State.mayIssue_iff.1 (State.mayIssue_of_readRequest h)).1 hihl
  · exact State.concludeIf_rejected hb (decide_eq_true ⟨hihl, hmin, hlen⟩) etherTypeIpv4
      (versionIpv4 ++ ihl) protoUdp .udpHdrTruncated

/-- Settles O15: the frame ends at the payload's offset. -/
theorem noPayloadIsEmptyPayload : Obligations.NoPayloadIsEmptyPayload :=
  ⟨fun len b12 b13 b14 b23 ihl => decodeKey_eq_iff (.rejEmptyPayload ihl) len b12 b13 b14 b23,
    fun ihl _ hb hihl hlen =>
      State.concludeIf_rejected hb (decide_eq_true ⟨hihl, hlen⟩) etherTypeIpv4 (versionIpv4 ++ ihl)
        protoUdp .emptyPayload⟩

/-- Settles O16: the accept row's descriptor, and the rejection that every other row leaves. -/
theorem acceptReturnsTheDescriptor : Obligations.AcceptReturnsTheDescriptor := by
  refine ⟨fun len b12 b13 b14 b23 ihl => decodeKey_eq_iff (.accept ihl) len b12 b13 b14 b23,
    fun ihl s hb hihl hfit hlen => execAccept_outcome hb hihl hfit hlen,
    fun i s t ho hi hb h hresp => ?_⟩
  have hne : t.phase ≠ s.phase := by rw [hresp, hb]; decide
  obtain ⟨d, hd⟩ := exec_reject_response ho hi h hne
  exact ⟨congrArg Response.offset hd, congrArg Response.length hd⟩

end Sys2Proof.Machine
end

section
/-! SUPPORT. `Extract` from the conditions of the rows: the descriptor that it can return, and what it
answers for a frame built of its headers and a payload. -/

namespace Sys2Proof.Machine

/-! ### What `Extract` can return -/

/-- The payload's offset in plain numbers (rules R67 and R109). -/
theorem payloadOffset_eq (ihl : BitVec 4) : payloadOffset ihl = 22 + 4 * ihl.toNat := by
  simp only [payloadOffset, ipEnd, ethHdrLen, ihlUnit, udpHdrLen]
  omega

/-- The conditions of a row give its result. -/
theorem Extract_of_selectedBy {i : Instr} {len : Nat} {rd : Nat → Byte}
    (h : i.selectedBy len (rd 12) (rd 13) (rd 14) (rd 23)) : Extract len rd = rowResult len i := by
  rw [Extract_eq_rowResult, h.decodeKey_eq]

/-- `Extract` rejects, or it accepts a frame whose payload is not empty. -/
theorem Extract_cases (len : Nat) (rd : Nat → Byte) :
    (∃ d, d ≠ .none ∧ Extract len rd = .reject d) ∨
    (∃ ihl : BitVec 4, rd 14 = 4#4 ++ ihl ∧ 5 ≤ ihl.toNat ∧ payloadOffset ihl < len ∧
      Extract len rd = .accept (payloadOffset ihl) (len - payloadOffset ihl)) := by
  have hsel := decodeKey_selectedBy len (rd 12) (rd 13) (rd 14) (rd 23)
  have hres := Extract_of_selectedBy hsel
  generalize decodeKey len (makeKey (rd 12) (rd 13) (rd 14) (rd 23)) = i at hsel hres
  cases i with
  | extract n => exact hsel.elim
  | accept ihl =>
    obtain ⟨-, hb14, hihl, -, hlen⟩ := hsel
    exact .inr ⟨ihl, hb14, hihl, hlen, hres⟩
  | _ => exact .inl ⟨_, by decide, hres⟩

/-- A rejection's status is not OK (rule R71). -/
theorem Detail.status_ne_ok {d : Detail} (hd : d ≠ .none) : d.status ≠ .ok := by
  cases d with
  | none => exact absurd rfl hd
  | _ => decide

/-- Settles O23: `Extract_cases`, and IHL has four bits. -/
theorem descriptorRunsToTheEndOfTheBuffer : Obligations.DescriptorRunsToTheEndOfTheBuffer := by
  intro len rd
  rcases Extract_cases len rd with ⟨d, hd, hres⟩ | ⟨ihl, hb14, hihl, hlen, hres⟩
  · rw [hres]
    exact ⟨fun hok => absurd hok (Detail.status_ne_ok hd), fun _ => ⟨rfl, rfl⟩⟩
  · have hfield : (rd 14).toNat % 16 = ihl.toNat := by
      rw [← ihl_toNat, (eq_version_ihl_iff.1 hb14).2]
    have hmax : ihl.toNat < 16 := ihl.isLt
    rw [payloadOffset_eq] at hlen hres
    rw [hres, hfield]
    refine ⟨fun _ => ⟨rfl, ?_, ?_, ?_, ?_⟩, fun hne => absurd rfl hne⟩ <;>
      simp only [Result.accept] <;> omega

/-! ### A frame built of its headers and a payload -/

/-- The bytes of EtherType 0x0800, most significant first (rules R45 and R62). -/
theorem ipv4_etherType : 0x08#8 ++ 0x00#8 = 0x0800#16 := by decide

/-- An Ethernet header of EtherType 0x0800, an IPv4 header of version 4 and protocol 17, and a UDP header,
with everything else in them free (rule R120). -/
def udpHeaders (macs ip1 ip2 udp : List Byte) (ihl : BitVec 4) : List Byte :=
  macs ++ [0x08#8, 0x00#8] ++ [4#4 ++ ihl] ++ ip1 ++ [17#8] ++ ip2 ++ udp

/-- The byte behind the first `n` bytes of a frame. -/
theorem frameByte_append_cons {before : List Byte} {n : Nat} (h : before.length = n) (b : Byte)
    (after : List Byte) : frameByte (before ++ b :: after) n = b := by
  subst h
  simp [frameByte]

section
variable {macs ip1 ip2 udp : List Byte} {ihl : BitVec 4} (hmacs : macs.length = 12)
  (hip1 : ip1.length = 8)
include hmacs hip1

/-- The headers end at the payload's offset (rule R109). -/
theorem udpHeaders_length (hip2 : ip2.length + 10 = 4 * ihl.toNat) (hudp : udp.length = 8) :
    (udpHeaders macs ip1 ip2 udp ihl).length = 22 + 4 * ihl.toNat := by
  simp only [udpHeaders, List.length_append, List.length_cons, List.length_nil]
  omega

/-- Where the key bytes of a built frame stand. -/
theorem udpHeaders_keyBytes (payload : List Byte) :
    frameByte (udpHeaders macs ip1 ip2 udp ihl ++ payload) 12 = 0x08#8 ∧
    frameByte (udpHeaders macs ip1 ip2 udp ihl ++ payload) 13 = 0x00#8 ∧
    frameByte (udpHeaders macs ip1 ip2 udp ihl ++ payload) 14 = 4#4 ++ ihl ∧
    frameByte (udpHeaders macs ip1 ip2 udp ihl ++ payload) 23 = 17#8 := by
  have h12 := frameByte_append_cons (before := macs) (n := 12) (by omega) 0x08#8
  have h13 := frameByte_append_cons (before := macs ++ [0x08#8]) (n := 13) (by simp; omega) 0x00#8
  have h14 := frameByte_append_cons (before := macs ++ [0x08#8, 0x00#8]) (n := 14) (by simp; omega)
    (4#4 ++ ihl)
  have h23 := frameByte_append_cons (before := macs ++ [0x08#8, 0x00#8] ++ [4#4 ++ ihl] ++ ip1)
    (n := 23) (by simp; omega) 17#8
  simp only [List.append_assoc, List.cons_append, List.nil_append] at h13 h14 h23
  simp only [udpHeaders, List.append_assoc, List.cons_append, List.nil_append]
  exact ⟨h12 _, h13 _, h14 _, h23 _⟩

/-- The round trip (rule R120): a built frame is accepted with its payload's place. -/
theorem Extract_udpHeaders_append {payload : List Byte} (hip2 : ip2.length + 10 = 4 * ihl.toNat)
    (hihl : 5 ≤ ihl.toNat) (hudp : udp.length = 8) (hpayload : payload ≠ []) :
    Extract (udpHeaders macs ip1 ip2 udp ihl ++ payload).length
        (frameByte (udpHeaders macs ip1 ip2 udp ihl ++ payload)) =
      .accept (22 + 4 * ihl.toNat) payload.length := by
  obtain ⟨h12, h13, h14, h23⟩ := udpHeaders_keyBytes (ip2 := ip2) (udp := udp) (ihl := ihl)
    hmacs hip1 payload
  have hlen : (udpHeaders macs ip1 ip2 udp ihl ++ payload).length =
      22 + 4 * ihl.toNat + payload.length := by
    rw [List.length_append, udpHeaders_length hmacs hip1 hip2 hudp]
  have hpos := List.length_pos_iff.2 hpayload
  rw [Extract_of_selectedBy (i := .accept ihl)
    ⟨by rw [h12, h13, ipv4_etherType], h14, hihl, h23, by rw [hlen]; omega⟩, rowResult, hlen,
    payloadOffset_eq, Nat.add_sub_cancel_left]

end

/-- Settles O24: each of the four frames meets the conditions of one row. -/
theorem extractionProperties : Obligations.ExtractionProperties := by
  refine ⟨fun rd ihl h12 h13 h14 hihl h23 => ?_, fun len rd ihl h12 h13 h14 hihl hlen h23 => ?_,
    fun len rd h12 h13 h14 h23 hlen => ?_,
    fun macs ip1 ip2 udp payload ihl hmacs hip1 hip2 hihl hudp hpayload => ?_⟩
  · exact Extract_of_selectedBy (i := .rejEmptyPayload ihl)
      ⟨by rw [h12, h13, ipv4_etherType], h14, hihl, h23, by omega⟩
  · exact Extract_of_selectedBy (i := .rejNotUdp ihl (rd 23))
      ⟨by rw [h12, h13, ipv4_etherType], h14, hihl, hlen, rfl, h23⟩
  · exact Extract_of_selectedBy (i := .accept 6#4)
      ⟨by rw [h12, h13, ipv4_etherType], by rw [h14]; decide, by decide, h23, hlen⟩
  · exact ⟨Extract_udpHeaders_append hmacs hip1 hip2 hihl hudp hpayload,
      List.drop_left' (udpHeaders_length hmacs hip1 hip2 hudp)⟩

end Sys2Proof.Machine
end

section
/-! SUPPORT. What the invariant says of the reads issued and of the payload on the response port. -/

namespace Sys2Proof.Machine

/-- Settles O42: no address of the read set is read twice, and the read set has four. -/
theorem atMostFourReads : Obligations.AtMostFourReads := by
  intro s hi
  obtain ⟨-, hnodup, hset, -, -⟩ := hi.readPort
  have hsub : s.issued ⊆ keyAddrs := fun a ha => (hset a ha).1
  exact (hnodup.subperm hsub).length_le

/-- Rule R148: a response is valid in RESP without reset. -/
theorem State.rspValid_iff {s : State} :
    s.rspValid = true ↔ s.phase = .resp ∧ s.now.rst = false := by
  simp [State.rspValid]

/-- Settles O54: the handoff of a valid response, whose descriptor the invariant fits to the frame. -/
theorem payloadGoesDownstreamOnlyOnOk : Obligations.PayloadGoesDownstreamOnlyOnOk := by
  refine ⟨fun s draw h => State.handoff_none draw ?_, fun s draw hi hp hr hok => ?_⟩
  · by_cases hok : s.rspStatus = Status.ok.code
    · refine .inl (Bool.eq_false_iff.2 fun hv => ?_)
      obtain ⟨hp, hr⟩ := State.rspValid_iff.1 hv
      rcases h with h | h | h
      · exact h hp
      · simp [hr] at h
      · exact h hok
    · exact .inr hok
  · have hv : s.rspValid = true := State.rspValid_iff.2 ⟨hp, hr⟩
    obtain ⟨-, -, hresult⟩ := hi.result
    obtain ⟨-, -, hfits⟩ := hresult hp
    obtain ⟨hihl, hoffset, hpos, hend⟩ := hfits hok
    refine ⟨hv, _, State.handoff_some draw hv hok, payloadBytes_length .., ?_, hihl, hoffset, ?_,
      fun hintact j hj => ?_⟩
    · rw [payloadBytes_length]; exact hpos
    · rw [payloadBytes_length]; exact hend
    · rw [payloadBytes_length] at hj
      rw [payloadBytes_get _ _ _ _ hj, if_pos hintact]

end Sys2Proof.Machine
end

section
/-! SUPPORT. The edges of IDLE and RESP: the outputs there, the two handshakes, the edges at which the
block rests, and what two cycles that differ only in inputs that are not sampled have in common. -/

namespace Sys2Proof.Machine

/-! ### The handshakes (rules R16 and R148) -/

theorem State.reqReady_iff {s : State} :
    s.reqReady = true ↔ s.phase = .idle ∧ s.now.rst = false := by
  simp [State.reqReady]

theorem State.requestHandshake_iff {s : State} :
    s.requestHandshake = true ↔ s.phase = .idle ∧ s.now.rst = false ∧ s.now.reqValid = true := by
  rw [State.requestHandshake, Bool.and_eq_true, State.reqReady_iff, and_assoc]

theorem State.responseHandshake_iff {s : State} :
    s.responseHandshake = true ↔ s.phase = .resp ∧ s.now.rst = false ∧ s.now.rspReady = true := by
  rw [State.responseHandshake, Bool.and_eq_true, State.rspValid_iff, and_assoc]

/-- The block takes requests in IDLE only. -/
theorem State.reqReady_eq_false {s : State} (h : s.phase ≠ .idle) : s.reqReady = false :=
  Bool.eq_false_iff.2 fun hready => h (State.reqReady_iff.1 hready).1

/-- The block offers responses in RESP only. -/
theorem State.rspValid_eq_false {s : State} (h : s.phase ≠ .resp) : s.rspValid = false :=
  Bool.eq_false_iff.2 fun hvalid => h (State.rspValid_iff.1 hvalid).1

/-- The block reads FB in BUSY only (rule R147). -/
theorem State.fbRdEn_eq_false {s : State} (h : s.phase ≠ .busy) : s.fbRdEn = false := by
  simp [State.fbRdEn, State.readRequest, h]

/-! ### The edges of IDLE and RESP -/

/-- The reset edge (rule R230). -/
theorem step_reset {s : State} (hr : s.now.rst = true) : step s = .next s.endCycle.resetEdge := by
  simp [step, State.edge, hr]

/-- A cycle of RESP whose consumer stalls. -/
theorem step_hold {s : State} (hr : s.now.rst = false) (hp : s.phase = .resp)
    (hq : s.now.rspReady = false) : step s = .next s.endCycle := by
  simp [step, State.edge, hr, hp, hq]

/-- A step takes the frame source's writes and leaves every other byte of FB. -/
theorem step_read_unwritten {s t : State} (h : step s = .next t) :
    ∀ a : Nat, (∀ w ∈ s.now.fbWrites, w.1 ≠ a) → Memory.read t.fb a = Memory.read s.fb a :=
  fun a => onlyTheFrameSourceWritesFB.2.2 s t a h

/-- The end of a cycle is no edge of the block: it writes none of its registers. -/
theorem sameRegisters_endCycle (s : State) : sameRegisters s s.endCycle :=
  ⟨rfl, rfl, rfl, rfl, rfl, rfl, rfl, rfl, rfl⟩

/-- A request handshake latches the length, enters BUSY, and leaves the response and the log
(rule R141). -/
theorem step_requestHandshake {s : State} (h : s.requestHandshake = true) :
    ∃ t, step s = .next t ∧ t.phase = .busy ∧ t.lenR = lowBits s.lenW s.now.reqLen ∧
      t.response = s.response ∧ t.log = s.log := by
  obtain ⟨hp, hr, hq⟩ := State.requestHandshake_iff.1 h
  refine ⟨_, step_request hr hp hq, ?_⟩
  simp [State.response, State.noteDuty_keeps]

/-- A response handshake that a next state answers has delivered the response: any other pair of codes
than an extraction's is a fault (item I16). -/
theorem eq_delivered_of_responseHandshake {s t : State} (hh : s.responseHandshake = true)
    (h : step s = .next t) : t = s.endCycle.delivered := by
  obtain ⟨hp, hr, hq⟩ := State.responseHandshake_iff.1 hh
  cases hl : legalCodes s.resStatus s.resDetail with
  | true =>
    rw [step_deliver hr hp hq hl] at h
    injection h with h
    exact h.symm
  | false =>
    rw [reservedResponseIsAFault s hp hr hq hl] at h
    cases h

/-- Settles O36: the delivery appends the response; in RESP without one, and in every other phase, the
log stays. -/
theorem logGrowsOnlyAtResponseHandshakes : Obligations.LogGrowsOnlyAtResponseHandshakes := by
  intro s t h
  by_cases hh : s.responseHandshake = true
  · rw [if_pos hh, eq_delivered_of_responseHandshake hh h]
    rfl
  rw [if_neg hh]
  by_cases hp : s.phase = .resp
  · cases hr : s.now.rst with
    | true => cases (step_reset hr).symm.trans h; rfl
    | false =>
      have hq : s.now.rspReady = false :=
        Bool.eq_false_iff.2 fun hq => hh (State.responseHandshake_iff.2 ⟨hp, hr, hq⟩)
      cases (step_hold hr hp hq).symm.trans h
      rfl
  · exact step_log h hp

/-- Settles O27: the output functions of rule R148. -/
theorem outputsAreFunctionsOfPhaseAndReset : Obligations.OutputsAreFunctionsOfPhaseAndReset :=
  fun _ => ⟨State.reqReady_iff, State.rspValid_iff, rfl, rfl, rfl, rfl⟩

/-- Settles O28: the request handshake, and the edge of IDLE at which only the cycle ends. -/
theorem idleWaitsForARequest : Obligations.IdleWaitsForARequest := by
  intro s hp
  refine ⟨fun hr => State.reqReady_iff.2 ⟨hp, hr⟩, State.rspValid_eq_false (by rw [hp]; decide),
    State.fbRdEn_eq_false (by rw [hp]; decide), fun hr hq => ?_, fun hr hq => ?_⟩
  · obtain ⟨t, hstep, hbusy, hlenR, hresponse, hlog⟩ :=
      step_requestHandshake (State.requestHandshake_iff.2 ⟨hp, hr, hq⟩)
    exact ⟨t, hstep, fun hlen => hlenR.trans (lowBits_eq hlen), hbusy, hresponse, hlog⟩
  · have hstep := step_idle hr hp hq
    exact ⟨_, hstep, sameRegisters_endCycle s, rfl, step_read_unwritten hstep⟩

/-- Settles O29: the edge of RESP at which only the cycle ends, and the delivery. -/
theorem responseIsHeldUntilTaken : Obligations.ResponseIsHeldUntilTaken := by
  intro s hp
  refine ⟨fun hr => State.rspValid_iff.2 ⟨hp, hr⟩, State.reqReady_eq_false (by rw [hp]; decide),
    State.fbRdEn_eq_false (by rw [hp]; decide), rfl, rfl, rfl, rfl, fun hr hq => ?_,
    fun hr hq hl => ?_⟩
  · have hstep := step_hold hr hp hq
    exact ⟨_, hstep, sameRegisters_endCycle s, rfl, step_read_unwritten hstep⟩
  · have hstep := step_deliver hr hp hq hl
    exact ⟨_, hstep, rfl, rfl, rfl, rfl, step_read_unwritten hstep⟩

/-- Settles O30: at both edges only the cycle ends. -/
theorem quietEdgesKeepTheBlock : Obligations.QuietEdgesKeepTheBlock := by
  rintro s hr (⟨hp, hq⟩ | ⟨hp, hq⟩)
  · exact step_idle hr hp hq
  · exact step_hold hr hp hq

/-- Settles O35: the delivery leaves IDLE, where the next request is taken. -/
theorem nextRequestComesAfterTheResponse : Obligations.NextRequestComesAfterTheResponse := by
  intro s t hh h
  have ht : t = s.endCycle.delivered := eq_delivered_of_responseHandshake hh h
  have hidle : t.phase = .idle := ht ▸ rfl
  have hlenR : t.lenR = s.lenR := ht ▸ rfl
  have hready : s.reqReady = false := by
    apply State.reqReady_eq_false
    rw [(State.responseHandshake_iff.1 hh).1]
    decide
  refine ⟨hready, by rw [State.requestHandshake, hready]; rfl, hlenR, hidle,
    fun hr => State.reqReady_iff.2 ⟨hidle, hr⟩, fun hr hq => ?_⟩
  obtain ⟨u, hstep, hbusy, hlen, -, -⟩ :=
    step_requestHandshake (State.requestHandshake_iff.2 ⟨hidle, hr, hq⟩)
  exact ⟨u, hstep, hbusy, hlen⟩

/-! ### The instruction of an edge -/

/-- Settles O17: outside BUSY an instruction has no effect unless it is a request. -/
theorem outcomeRowsActOnlyInBusy : Obligations.OutcomeRowsActOnlyInBusy := by
  intro i s ho hb
  obtain ⟨t, ht⟩ := exec_answers i s
  rcases exec_cases ht with rfl | ⟨-, n, rfl, -⟩ | ⟨hbusy, -, -⟩
  · exact ht
  · cases ho
  · exact absurd hbusy hb

/-- Settles O25: the edge of the request handshake runs the decoded request, and the edge that ends BUSY
answers what the selected row answers. -/
theorem stepRunsTheDecodedInstruction : Obligations.StepRunsTheDecodedInstruction := by
  refine ⟨fun s i hr hp hq hi => ?_, fun s i hr hp hm hi => ?_⟩
  · have hedge : s.edge = .run i s.endCycle := by simp [State.edge, hr, hp, hq, hi]
    simp only [step, hedge]
  · obtain ⟨t, hstep, hexec, -⟩ := step_finish hr hp hm
    have hlenR : s.busyCycle.lenR = s.lenR := s.busyCycle_keeps.2.1
    rw [hlenR, hi] at hexec
    rw [hstep, hexec]

/-- Settles O46, phase by phase: the one fault of the step is a response handshake on a pair of codes that
the invariant excludes. -/
theorem noStateStopsTheBlock : Obligations.NoStateStopsTheBlock := by
  intro s hi
  cases hr : s.now.rst with
  | true => exact ⟨_, step_reset hr⟩
  | false =>
    cases hp : s.phase with
    | idle =>
      cases hq : s.now.reqValid with
      | true => exact ⟨_, step_request hr hp hq⟩
      | false => exact ⟨_, step_idle hr hp hq⟩
    | busy =>
      obtain ⟨t, ht, -⟩ := busyComesNearerToItsEnd s hi hp hr
      exact ⟨t, ht⟩
    | resp =>
      cases hq : s.now.rspReady with
      | true => exact ⟨_, step_deliver hr hp hq hi.result.1⟩
      | false => exact ⟨_, step_hold hr hp hq⟩

/-! ### Inputs that are not sampled (rule R145) -/

/-- What a breach of duty is depends on the frame source alone. -/
theorem breaksDuty_congr {c c' : PortIn} (hw : c.fbWrites = c'.fbWrites)
    (ha : c.badAnswer = c'.badAnswer) (len : Nat) : breaksDuty len c = breaksDuty len c' := by
  simp only [breaksDuty, hw, ha]

theorem State.noteDuty_congr {c c' : PortIn} (hw : c.fbWrites = c'.fbWrites)
    (ha : c.badAnswer = c'.badAnswer) (s : State) : s.noteDuty c = s.noteDuty c' := by
  simp only [State.noteDuty, breaksDuty_congr hw ha]

theorem afterRun_congr {c c' : PortIn} (hw : c.fbWrites = c'.fbWrites)
    (ha : c.badAnswer = c'.badAnswer) : afterRun c = afterRun c' := by
  funext o
  cases o with
  | next s => exact congrArg _ (State.noteDuty_congr hw ha s)
  | fault f => rfl
  | refused r => rfl

/-- Of a cycle's inputs its end takes the writes to FB alone. -/
theorem State.endCycle_congr {c c' : PortIn} (hw : c.fbWrites = c'.fbWrites) (s : State)
    (cs : List PortIn) :
    ({ s with inputs := c :: cs } : State).endCycle =
      ({ s with inputs := c' :: cs } : State).endCycle := by
  simp [State.endCycle, State.incoming, State.now, hw]

/-- Of a cycle's inputs BUSY takes the doings of the frame source alone. -/
theorem State.busyCycle_congr {s s' : State} (hend : s.endCycle = s'.endCycle)
    (hw : s.now.fbWrites = s'.now.fbWrites) (ha : s.now.badAnswer = s'.now.badAnswer) :
    s.busyCycle = s'.busyCycle := by
  simp only [State.busyCycle, hend, State.noteDuty_congr hw ha]

/-- The edge samples `rst` always, the request in IDLE, and `rsp_ready` in RESP. -/
theorem State.edge_congr {s s' : State} (hend : s.endCycle = s'.endCycle)
    (hbusy : s.busyCycle = s'.busyCycle) (hr : s.now.rst = s'.now.rst)
    (hidle : s.phase = .idle → s.now.reqValid = s'.now.reqValid ∧
      (s.now.reqValid = true → s.now.reqLen = s'.now.reqLen))
    (hresp : s.phase = .resp → s.now.rspReady = s'.now.rspReady) : s.edge = s'.edge := by
  have hphase : s.phase = s'.phase := by simpa using congrArg State.phase hend
  have hlenW : s.lenW = s'.lenW := by simpa using congrArg State.lenW hend
  simp only [State.edge, hend, hbusy, hr, ← hphase]
  cases hp : s.phase with
  | idle =>
    obtain ⟨hvalid, hlen⟩ := hidle hp
    rw [← hvalid]
    cases hq : s.now.reqValid with
    | true => rw [hlen hq, hlenW]
    | false => rfl
  | busy => rfl
  | resp => rw [hresp hp]

/-- Settles O34: the two cycles have the same edge, and a breach of duty at the handshake is one in
both. -/
theorem inputsMatterOnlyWhereSampled : Obligations.InputsMatterOnlyWhereSampled := by
  intro s c c' cs hr hw ha hidle hresp
  have hend := State.endCycle_congr hw s cs
  have hedge := State.edge_congr hend (State.busyCycle_congr hend hw ha) hr hidle hresp
  have hafter : afterRun ({ s with inputs := c :: cs } : State).now =
      afterRun ({ s with inputs := c' :: cs } : State).now := afterRun_congr hw ha
  simp only [step, hedge, hafter]

end Sys2Proof.Machine
end

section
/-! SUPPORT. Handshakes over a run without reset (rule R144): how each step moves the transaction in
flight, and the induction over the cycles. -/

namespace Sys2Proof.Machine

/-- The transactions in flight: the one whose request has been taken and whose response has not. -/
def State.inFlight (s : State) : Nat := if s.phase = .idle then 0 else 1

theorem State.inFlight_idle {s : State} (h : s.phase = .idle) : s.inFlight = 0 := if_pos h

/-- The events of a run's first cycle, and those of the rest. -/
theorem countCycles_succ {event : State → Bool} {s t : State} (k : Nat) (h : step s = .next t) :
    countCycles event (k + 1) s = (if event s = true then 1 else 0) + countCycles event k t := by
  simp only [countCycles, h]

/-- A request handshake puts one transaction in flight, a response handshake takes it out, and no other
edge but reset does either. -/
theorem step_inFlight {s t : State} (hr : s.now.rst = false) (h : step s = .next t) :
    (if s.requestHandshake = true then 1 else 0) + s.inFlight =
      (if s.responseHandshake = true then 1 else 0) + t.inFlight := by
  have hcycle : s.busyCycle.phase = s.phase := s.busyCycle_keeps.1
  simp only [State.inFlight, State.requestHandshake_iff, State.responseHandshake_iff, hr]
  cases step_cases h with
  | reset hrst _ => simp [hr] at hrst
  | idle _ hp hq ht => simp [ht, hp, hq]
  | accept _ hp hq ht => simp [ht, hp, hq, State.noteDuty_keeps]
  | read _ hp a _ ht => simp [ht, hp, hcycle]
  | wait _ hp _ ht => simp [ht, hp, hcycle]
  | finish _ hp _ _ hc => simp [hc.keeps, hp]
  | hold _ hp hq ht => simp [ht, hp, hq]
  | deliver _ hp hq _ ht => simp [ht, hp, hq]

/-- The same over a run without reset, from any phase. -/
theorem run_inFlight {k : Nat} {s t : State} (hrst : ∀ c ∈ s.inputs, c.rst = false)
    (hrun : Sys2Proof.core.run k s = .next t) :
    countCycles State.requestHandshake k s + s.inFlight =
      countCycles State.responseHandshake k s + t.inFlight := by
  induction k generalizing s with
  | zero => cases hrun; rfl
  | succ k ih =>
    obtain ⟨u, hu, hrun'⟩ := run_succ_cases hrun
    have hstep := step_inFlight (State.now_rst_of_inputs hrst) hu
    have hrest := ih (fun c hc => hrst c (List.mem_of_mem_tail (step_inputs hu ▸ hc))) hrun'
    rw [countCycles_succ k hu, countCycles_succ k hu]
    omega

/-- The log gains one tuple for each response handshake of a run. -/
theorem run_log_length {k : Nat} {s t : State} (hrun : Sys2Proof.core.run k s = .next t) :
    t.log.length = s.log.length + countCycles State.responseHandshake k s := by
  induction k generalizing s with
  | zero => cases hrun; rfl
  | succ k ih =>
    obtain ⟨u, hu, hrun'⟩ := run_succ_cases hrun
    rw [ih hrun', countCycles_succ k hu, logGrowsOnlyAtResponseHandshakes s u hu]
    split
    · rw [List.length_append, List.length_singleton]; omega
    · omega

/-- Settles O52: no transaction is in flight in IDLE, where the run starts. -/
theorem handshakesArePaired : Obligations.HandshakesArePaired := by
  intro k s t hp hrst hrun
  have hcounts := run_inFlight hrst hrun
  rw [State.inFlight_idle hp] at hcounts
  exact ⟨hcounts, run_log_length hrun⟩

end Sys2Proof.Machine
end

section
/-! SUPPORT. The lifetime of a payload: which loans a step adds, when it marks the payload of the block's own
response, and how a loan reads while its frame is left alone and once it has been written. -/

namespace Sys2Proof.Machine

/-! ### The loans and the mark over a step -/

/-- The payload handed over at the end of a cycle has that cycle's writes noted already. -/
theorem State.endCycle_newLoans (s : State) :
    s.endCycle.newLoans = s.newLoans.map (Loan.note s.incoming) := by
  rw [State.newLoans, State.newLoans, apply_ite (List.map (Loan.note s.incoming))]
  rfl

/-- A response handshake adds the payload of an OK response to the loans, and the cycle's writes are noted
on it and on the others. -/
theorem step_loans_of_responseHandshake {s t : State} (hh : s.responseHandshake = true)
    (h : step s = .next t) : t.loans = (s.loans ++ s.newLoans).map (Loan.note s.incoming) := by
  rw [eq_delivered_of_responseHandshake hh h, State.delivered_loans, State.endCycle_loans,
    State.endCycle_newLoans, List.map_append]

/-- Without a response handshake a step notes the cycle's writes on the loans and adds none. -/
theorem step_loans_of_no_responseHandshake {s t : State} (hh : s.responseHandshake ≠ true)
    (h : step s = .next t) : t.loans = s.loans.map (Loan.note s.incoming) := by
  have kb := s.busyCycle_keeps
  cases step_cases h with
  | reset _ ht => simp [ht]
  | idle _ _ _ ht => simp [ht]
  | accept _ _ _ ht => simp [ht, State.noteDuty_keeps]
  | read _ _ a _ ht => simp [ht, kb]
  | wait _ _ _ ht => simp [ht, kb]
  | finish _ _ _ _ hc => obtain ⟨_, _, _, _, -, rfl⟩ := hc; simp [kb]
  | hold _ _ _ ht => simp [ht]
  | deliver hr hp hq _ _ => exact absurd (State.responseHandshake_iff.2 ⟨hp, hr, hq⟩) hh

/-- The edge from BUSY to RESP marks the payload by whether the transaction has been disturbed. -/
theorem step_payloadIntact_of_busy_resp {s t : State} (hb : s.phase = .busy) (ht : t.phase = .resp)
    (h : step s = .next t) : t.payloadIntact = !s.busyCycle.disturbed := by
  have hcycle : s.busyCycle.phase = .busy := s.busyCycle_keeps.1.trans hb
  cases step_cases h with
  | reset _ ht' => simp [ht'] at ht
  | idle _ hp _ _ => simp [hb] at hp
  | accept _ hp _ _ => simp [hb] at hp
  | read _ _ a _ ht' => simp [ht', hcycle] at ht
  | wait _ _ _ ht' => simp [ht', hcycle] at ht
  | finish _ _ _ _ hc =>
    obtain ⟨-, -, -, hmark⟩ := hc.keeps
    exact hmark
  | hold _ hp _ _ => simp [hb] at hp
  | deliver _ hp _ _ _ => simp [hb] at hp

/-- Every edge of RESP, that of reset too, leaves the mark as the end of the cycle sets it. -/
theorem step_payloadIntact_of_resp {s t : State} (hp : s.phase = .resp) (h : step s = .next t) :
    t.payloadIntact = s.endCycle.payloadIntact := by
  cases hr : s.now.rst with
  | true => cases (step_reset hr).symm.trans h; rfl
  | false =>
    cases hq : s.now.rspReady with
    | true =>
      rw [eq_delivered_of_responseHandshake (State.responseHandshake_iff.2 ⟨hp, hr, hq⟩) h]
      rfl
    | false => cases (step_hold hr hp hq).symm.trans h; rfl

/-- A payload is intact at the end of a cycle if it was, and no write of the cycle goes to its frame. -/
theorem State.endCycle_payloadIntact_iff {s : State} :
    s.endCycle.payloadIntact = true ↔ s.payloadIntact = true ∧
      ∀ w ∈ s.incoming, s.resOffset + s.resLength ≤ w.1 := by
  simp only [State.endCycle_payloadIntact, Bool.and_eq_true, Bool.not_eq_true', writesFrame_eq_false]

/-! ### How a loan reads -/

/-- A loan stays intact exactly while no write goes to its frame. -/
theorem Loan.note_intact_iff {ws : List (Nat × Byte)} {l : Loan} :
    (l.note ws).intact = true ↔ l.intact = true ∧ ∀ w ∈ ws, l.offset + l.length ≤ w.1 := by
  simp only [Loan.note_intact, Bool.and_eq_true, Bool.not_eq_true', writesFrame_eq_false]

/-- A loan is not intact once a write has gone to its frame, then or before. -/
theorem Loan.note_intact_eq_false {ws : List (Nat × Byte)} {l : Loan} :
    (l.note ws).intact = false ↔
      l.intact = false ∨ ∃ w ∈ ws, w.1 < l.offset + l.length := by
  simp only [Loan.note_intact, Bool.and_eq_false_iff, Bool.not_eq_false', writesFrame,
    List.any_eq_true, decide_eq_true_eq]

/-- An intact loan reads as the bytes of FB. -/
theorem Loan.payload_get_of_intact {l : Loan} {j : Nat} (draw : Nat) (fb : Memory)
    (hi : l.intact = true) (hj : j < l.length) :
    (l.payload draw fb)[j]? = some (Memory.read fb (l.offset + j)) := by
  rw [Loan.payload, payloadBytes_get _ _ _ _ hj, if_pos hi]

/-- A loan whose frame has been written reads as a free draw at each byte (rule R51). -/
theorem Loan.payload_get_of_not_intact {l : Loan} {j : Nat} (draw : Nat) (fb : Memory)
    (hi : l.intact = false) (hj : j < l.length) :
    (l.payload draw fb)[j]? = some (Config.freePayload (draw + j) (l.offset + j)) := by
  rw [Loan.payload, payloadBytes_get _ _ _ _ hj, if_neg (by simp [hi])]

/-- Writes that leave its frame alone do not change how an intact loan reads. -/
theorem Loan.payload_writes {l : Loan} {ws : List (Nat × Byte)} (draw draw' : Nat) (fb : Memory)
    (hi : l.intact = true) (hw : ∀ w ∈ ws, l.offset + l.length ≤ w.1) :
    (l.note ws).payload draw (Memory.writes fb ws) = l.payload draw' fb := by
  have hframe : writesFrame (l.offset + l.length) ws = false := writesFrame_eq_false.2 hw
  rw [Loan.payload, Loan.payload, Loan.note_intact_iff.2 ⟨hi, hw⟩, hi]
  exact payloadBytes_congr draw draw' fun a ha => Memory.read_writes_outside hframe ha

/-- Settles O55: the loans and the mark edge by edge, and how a loan reads while it is intact and after. -/
theorem payloadLastsUntilTheFrameIsOverwritten :
    Obligations.PayloadLastsUntilTheFrameIsOverwritten := by
  refine ⟨fun s t h => ?_, fun s t h => ⟨fun hb ht => step_payloadIntact_of_busy_resp hb ht h,
    fun hp => ?_⟩, fun s t l draw draw' h hi hw => ?_, fun s l draw j fb hbad hj => ?_⟩
  · by_cases hh : s.responseHandshake = true
    · rw [step_loans_of_responseHandshake hh h]
      simp only [hh, true_and]
      rfl
    · rw [step_loans_of_no_responseHandshake hh h, if_neg fun hc => hh hc.1, List.append_nil]
  · rw [step_payloadIntact_of_resp hp h]
    exact State.endCycle_payloadIntact_iff
  · refine ⟨Loan.note_intact_iff.2 ⟨hi, hw⟩, ?_,
      fun j hj => Loan.payload_get_of_intact draw' s.fb hi hj⟩
    rw [(step_frame h).1]
    exact Loan.payload_writes draw draw' s.fb hi hw
  · have hlost : (Loan.note s.incoming l).intact = false := Loan.note_intact_eq_false.2 hbad
    exact ⟨hlost, Loan.payload_get_of_not_intact draw fb hlost hj⟩

end Sys2Proof.Machine
end

section
/-! SUPPORT. The diagnostics of a log that has gained a response, and of the log that a step leaves. -/

namespace Sys2Proof.Machine

/-- A rejected frame's response leaves its two codes after the diagnostics so far. -/
theorem diagnostics_append_of_rejected (log : List Response) {r : Response}
    (hr : r.status ≠ Status.ok.code) :
    diagnostics (log ++ [r]) = diagnostics log ++ [(r.status, r.detail)] := by
  simp [diagnostics, hr]

/-- An accepted frame's response leaves no diagnostic. -/
theorem diagnostics_append_of_ok (log : List Response) {r : Response}
    (hr : r.status = Status.ok.code) : diagnostics (log ++ [r]) = diagnostics log := by
  simp [diagnostics, hr]

/-- Settles O37: the log gains the response at a response handshake alone, and the response is a
diagnostic unless its status is OK. -/
theorem everyRejectionLeavesItsDiagnostic : Obligations.EveryRejectionLeavesItsDiagnostic := by
  intro s t h
  rw [logGrowsOnlyAtResponseHandshakes s t h]
  by_cases hh : s.responseHandshake = true
  · rw [if_pos hh]
    by_cases hok : s.resStatus = Status.ok.code
    · rw [if_neg fun hc => hc.2 hok]
      exact diagnostics_append_of_ok s.log hok
    · rw [if_pos ⟨hh, hok⟩]
      exact diagnostics_append_of_rejected s.log hok
  · rw [if_neg hh, if_neg fun hc => hh hc.1]

end Sys2Proof.Machine
end

section
/-! SUPPORT. Reset: what wins at its edge, the transaction that follows it, and runs in which no reset abandons
a transaction. -/

namespace Sys2Proof.Machine

/-! ### The reset edge (rules R230 and R233) -/

/-- Under reset the block takes no request. -/
theorem State.reqReady_of_reset {s : State} (hr : s.now.rst = true) : s.reqReady = false := by
  simp [State.reqReady, hr]

/-- Under reset the block offers no response. -/
theorem State.rspValid_of_reset {s : State} (hr : s.now.rst = true) : s.rspValid = false := by
  simp [State.rspValid, hr]

/-- Under reset the block issues no read. -/
theorem State.fbRdEn_of_reset {s : State} (hr : s.now.rst = true) : s.fbRdEn = false := by
  simp [State.fbRdEn, State.readRequest, hr]

theorem State.requestHandshake_of_reset {s : State} (hr : s.now.rst = true) :
    s.requestHandshake = false := by
  rw [State.requestHandshake, State.reqReady_of_reset hr, Bool.false_and]

theorem State.responseHandshake_of_reset {s : State} (hr : s.now.rst = true) :
    s.responseHandshake = false := by
  rw [State.responseHandshake, State.rspValid_of_reset hr, Bool.false_and]

/-- Settles O32: the outputs are gated by `rst`, and the edge is the reset edge in every phase. -/
theorem resetWinsInEveryState : Obligations.ResetWinsInEveryState := by
  intro s hr
  refine ⟨State.reqReady_of_reset hr, State.rspValid_of_reset hr, State.fbRdEn_of_reset hr,
    State.requestHandshake_of_reset hr, State.responseHandshake_of_reset hr, _, step_reset hr, ?_⟩
  simp

/-- The inputs that follow a cycle of reset have no part in what it leaves. -/
theorem step_reset_inputs (s : State) {c : PortIn} (hr : c.rst = true) :
    ∃ v : State, ∀ cs : List PortIn,
      step { s with inputs := c :: cs } = .next { v.resetEdge with inputs := cs } :=
  ⟨({ s with inputs := [c] } : State).endCycle, fun _ => step_reset hr⟩

/-- The reset edge after a cycle that began with one renews the unspecified registers and the count of draws
alone. -/
theorem State.resetEdge_endCycle_eq {s u : State} (c : PortIn) (cs : List PortIn)
    (hu : u = ({ s.resetEdge with inputs := c :: cs } : State).endCycle) :
    { u.resetEdge with lenR := u.lenR, ethType := u.ethType, vihl := u.vihl, proto := u.proto,
                       draws := u.draws } = u := by
  subst hu
  rfl

/-- Settles O33: both runs begin with the same reset edge and end their second cycle in the same state, on which
the second reset edge renews the unspecified registers alone. -/
theorem longerResetHasTheSameEffect : Obligations.LongerResetHasTheSameEffect := by
  intro s c c' cs hr hr' hw
  obtain ⟨v, hfirst⟩ := step_reset_inputs s hr
  have hsecond : ({ v.resetEdge with inputs := c' :: cs } : State).endCycle =
      ({ v.resetEdge with inputs := PortIn.quiet :: cs } : State).endCycle :=
    State.endCycle_congr hw v.resetEdge cs
  exact ⟨_, _, (run_succ 1 (hfirst (c' :: cs))).trans (run_succ 0 (step_reset hr')),
    (run_succ 1 (hfirst (.quiet :: cs))).trans (run_succ 0 (step_idle rfl rfl rfl)),
    hsecond ▸ State.resetEdge_endCycle_eq c' cs rfl⟩

/-! ### The transaction after a reset (rule R231) -/

/-- After a reset from any phase, a request in the next cycle opens a transaction. -/
theorem opensTransaction_of_reset {n : Nat} {s : State} {c c' : PortIn} {cs : List PortIn}
    (hi : Invariant s) (hn : n < 2 ^ s.lenW) (hin : s.inputs = c :: c' :: cs)
    (hvalid : c'.reqValid = true) (hlen : c'.reqLen = n) (hq : quietFor n (c' :: cs)) :
    opensTransaction n s.endCycle.resetEdge :=
  ⟨hi.resetEdge_endCycle, rfl, hn, c', cs, congrArg List.tail hin, hvalid, hlen, hq⟩

/-- Settles O51: the reset edge leaves IDLE and the log as it was, and the transaction that opens there is
answered like any other. -/
theorem resetAbandonsTheTransaction : Obligations.ResetAbandonsTheTransaction := by
  intro n s c c' cs hi hn hin hr hvalid hlen hq
  have hstep : step s = .next s.endCycle.resetEdge := step_reset (by rw [State.now, hin]; exact hr)
  obtain ⟨k, t, hk, -, -, -, hlog, -, hresponse⟩ := everyTransactionAnswersExtract n _
    (opensTransaction_of_reset hi hn hin hvalid hlen hq)
  exact ⟨_, k, t, hstep, rfl, rfl, rfl, hk, hlog, hresponse⟩

/-! ### Runs in which no reset abandons a transaction (rule R240) -/

/-- A reset that abandons no transaction puts none in flight and takes none out. -/
theorem step_inFlight_of_not_abandons {s t : State} (ha : s.abandons ≠ true)
    (h : step s = .next t) :
    (if s.requestHandshake = true then 1 else 0) + s.inFlight =
      (if s.responseHandshake = true then 1 else 0) + t.inFlight := by
  cases hr : s.now.rst with
  | false => exact step_inFlight hr h
  | true =>
    have hp : s.phase = .idle := by simpa [State.abandons, hr] using ha
    cases (step_reset hr).symm.trans h
    simp [State.requestHandshake_of_reset hr, State.responseHandshake_of_reset hr, State.inFlight, hp]

/-- A run whose resets abandon no transaction keeps the balance of handshakes and transactions in
flight. -/
theorem run_inFlight_of_not_abandons {k : Nat} {s t : State}
    (hrun : Sys2Proof.core.run k s = .next t) (ha : countCycles State.abandons k s = 0) :
    countCycles State.requestHandshake k s + s.inFlight =
      countCycles State.responseHandshake k s + t.inFlight := by
  induction k generalizing s with
  | zero => cases hrun; rfl
  | succ k ih =>
    obtain ⟨u, hu, hrun'⟩ := run_succ_cases hrun
    rw [countCycles_succ k hu, Nat.add_eq_zero_iff] at ha
    obtain ⟨hnow, hlater⟩ := ha
    have hstep := step_inFlight_of_not_abandons (fun habandons => by simp [habandons] at hnow) hu
    have hrest := ih hrun' hlater
    rw [countCycles_succ k hu, countCycles_succ k hu]
    omega

/-- A run only appends to the log. -/
theorem run_log_prefix {k : Nat} {s t : State} (hrun : Sys2Proof.core.run k s = .next t) :
    s.log <+: t.log := by
  refine run_induction (P := fun u => s.log <+: u.log) (fun u v hprefix hstep => ?_)
    List.prefix_rfl hrun
  rw [logGrowsOnlyAtResponseHandshakes u v hstep]
  split
  · exact hprefix.trans (List.prefix_append _ _)
  · exact hprefix

/-- Settles O53: no transaction is in flight in IDLE, so a run from IDLE that ends there has as many responses
as requests, and each response is a tuple of the log. -/
theorem runIsFinishedWhenItEndsInIdle : Obligations.RunIsFinishedWhenItEndsInIdle := by
  intro k s t hp hrun ha
  have hpaired (ht : t.phase = .idle) :
      countCycles State.requestHandshake k s = countCycles State.responseHandshake k s := by
    have hbalance := run_inFlight_of_not_abandons hrun ha
    rwa [State.inFlight_idle hp, State.inFlight_idle ht] at hbalance
  refine ⟨⟨?_, fun ht => ⟨t, hrun, ht, hpaired ht, ha⟩⟩, ?_⟩
  · rintro ⟨t', hrun', ht', -, -⟩
    cases hrun.symm.trans hrun'
    exact ht'
  · obtain ⟨output, houtput⟩ := run_log_prefix hrun
    refine ⟨output, houtput.symm, fun ht => ?_⟩
    have hlength := run_log_length hrun
    rw [← houtput, List.length_append] at hlength
    rw [hpaired ht]
    omega

end Sys2Proof.Machine
end
